-- ==== Sys2Proof/Word.lean ====
section
/-! DEFINITION. The words of the block: bytes of the frame string and 64-bit frame words. -/

namespace Sys2Proof

/-- One byte `s[i]` of the bit string on the request port (10_state.md R21). -/
abbrev Byte := BitVec 8

/-- The 64-bit word of `a`, `err_word` and `r` (10_state.md R21, R23; `WORD_BITS` of 00_scope.md R7). -/
abbrev Word := BitVec 64

end Sys2Proof
end

