-- ==== Sys2Proof/Config.lean ====
section
/-! DEFINITION. What is fixed when the block is built: the parameters of 00_scope.md R7. -/

namespace Sys2Proof.Config

/-- Bits 0..59 carry the frame (00_scope.md R7). -/
def frameBits : Nat := 60

/-- The frame is held in a 64-bit word (00_scope.md R7). -/
def wordBits : Nat := 64

/-- Decoded year = BCD year + 2000 (00_scope.md R7). -/
def centuryBase : Nat := 2000

/-- +01:00 in minutes (00_scope.md R7). -/
def cetOffset : Int := 60

/-- +02:00 in minutes (00_scope.md R7). -/
def cestOffset : Int := 120

/-- The summer-time announcement covers the 60 minutes before a transition (00_scope.md R7, 42_calendar_zone.md R155). -/
def announceWindow : Int := 60

/-- Largest value BCD_ENC accepts (00_scope.md R7, decision D10). -/
def bcdEncMax : Nat := 99

/-- The only bit-string length that is accepted (00_scope.md R7). -/
def strFrameLen : Nat := 60

/-- This hardware's `TZ_CUTOFF`: none, the zone has transitions in every year (00_scope.md R7, decision D17, log 8). -/
def tzCutoff : Option Int := none

/-- The parameter `ZONE` (00_scope.md R7, 42_calendar_zone.md R150): for each UTC year the instant `S(Y)` at which summer
time begins and the instant `E(Y)` at which it ends. DESIGN CHOICE (log 7): these two functions are what the rules of
42_calendar_zone.md read of a zone. The default rule is `Sys2Proof.Machine.centralEuropean`. -/
structure Zone where
  /-- `S(Y)`. -/
  summerStart : Int → Int
  /-- `E(Y)`. -/
  summerEnd : Int → Int

/-- The two OPEN parameters of 00_scope.md R7, taken as an argument by every function that depends on them. The machine
itself takes `Sys2Proof.Machine.hardware`. -/
structure Params where
  /-- `ZONE` (decision D16). -/
  zone : Zone
  /-- `TZ_CUTOFF` (decision D17): the instant at and after which the zone is undefined, if any. -/
  cutoff : Option Int

end Sys2Proof.Config
end

