-- ==== Sys2Proof/Syntax.lean ====
section
/-! DEFINITION. The request bundle and the operations, one constructor for each row of spec/opcode_table.json. -/

namespace Sys2Proof

/-- The request bundle, format `REQ` (10_state.md R21, 30_encoding.md R60). Every field is an unsigned bit vector. -/
structure Request where
  /-- Operation select (30_encoding.md R62). -/
  op : BitVec 4
  /-- Word operand: a value, a frame word, or a BCD byte. -/
  a : Word
  /-- Low bit index, and the bit index of BIT. -/
  lo : BitVec 6
  /-- High bit index. -/
  hi : BitVec 6
  /-- Length in bytes of the bit string presented on `s`. -/
  sLen : BitVec 8
  /-- The first 60 bytes of the bit string. -/
  s : Vector Byte 60
  /-- Year. -/
  dtYear : BitVec 12
  /-- Month. -/
  dtMonth : BitVec 4
  /-- Day. -/
  dtDay : BitVec 5
  /-- Hour. -/
  dtHour : BitVec 5
  /-- Minute. -/
  dtMinute : BitVec 6
  deriving DecidableEq, Repr

/-- The operations of 30_encoding.md R62 with the operands each reads (10_state.md R22). Each operand is the unsigned
integer its field holds (30_encoding.md R64); its range is `Instr.wf`. -/
inductive Instr where
  /-- 0x0, reserved (30_encoding.md R63). -/
  | reserved0
  /-- 0x1 EXTRACT (40_bitfield.md R100). -/
  | extract (a lo hi : Nat)
  /-- 0x2 BCD_DEC (40_bitfield.md R102). -/
  | bcdDec (a : Nat)
  /-- 0x3 BCD_ENC (40_bitfield.md R104). -/
  | bcdEnc (a : Nat)
  /-- 0x4 PARITY (40_bitfield.md R106). -/
  | parity (a lo hi : Nat)
  /-- 0x5 FRAME_FROM_WORD (41_frame.md R121). -/
  | frameFromWord (a : Nat)
  /-- 0x6 FRAME_FROM_STRING (41_frame.md R122). -/
  | frameFromString (sLen : Nat) (str : List Byte)
  /-- 0x7 BIT (41_frame.md R124). -/
  | bit (a lo : Nat)
  /-- 0x8 RANGE (41_frame.md R125). -/
  | range (a lo hi : Nat)
  /-- 0x9 DECODE (43_decoder.md R170). -/
  | decode (a : Nat)
  /-- 0xA ENCODE (44_encoder.md R200): a UTC civil datetime. -/
  | encode (year month day hour minute : Nat)
  /-- 0xB ENCODE_LOCAL (44_encoder.md R203): a Central-European local civil datetime. -/
  | encodeLocal (year month day hour minute : Nat)
  /-- 0xC, reserved (30_encoding.md R63). -/
  | reservedC
  /-- 0xD, reserved (30_encoding.md R63). -/
  | reservedD
  /-- 0xE, reserved (30_encoding.md R63). -/
  | reservedE
  /-- 0xF, reserved (30_encoding.md R63). -/
  | reservedF
  deriving DecidableEq, Repr

end Sys2Proof
end

