-- ==== Sys2Proof/Machine/State.lean ====
section
/-! DEFINITION. The response bundle, the error names, and State: the host interface of a block without storage. -/

namespace Sys2Proof.Machine

/-- The response bundle (10_state.md R23). Every field is an unsigned bit vector. -/
structure Response where
  /-- Error kind, 0 = NONE (30_encoding.md R78). -/
  errKind : BitVec 3
  /-- Which check failed (30_encoding.md R79). -/
  errTag : BitVec 4
  /-- Detail of an ARGUMENT error (30_encoding.md R80). -/
  errSub : BitVec 3
  /-- On an error of an operation that reads `a`, a copy of it (30_encoding.md R81). -/
  errWord : Word
  /-- Scalar result. -/
  r : Word
  /-- Decoded year. -/
  qYear : BitVec 12
  /-- Decoded month. -/
  qMonth : BitVec 4
  /-- Decoded day of month. -/
  qDay : BitVec 5
  /-- Decoded local hour. -/
  qHour : BitVec 5
  /-- Decoded minute. -/
  qMinute : BitVec 6
  /-- Decoded offset: 1 = CEST, 0 = CET. -/
  qCest : BitVec 1
  deriving DecidableEq, Repr

/-- Every field 0: what a response holds in the fields its operation does not write (10_state.md R24). -/
def Response.zero : Response :=
  { errKind := 0, errTag := 0, errSub := 0, errWord := 0, r := 0, qYear := 0, qMonth := 0, qDay := 0, qHour := 0,
    qMinute := 0, qCest := 0 }

/-- The error kinds (30_encoding.md R78, 60_exceptions.md R221). -/
inductive ErrKind where
  /-- A marker, a shape or a calendar date is wrong. -/
  | structural
  /-- A computed parity differs from the transmitted parity bit. -/
  | parity
  /-- Two independently derived pieces of information disagree. -/
  | consistency
  /-- An operand outside the operation's domain, or a reserved `op`. -/
  | argument
  deriving DecidableEq, Repr

/-- What an error is about (30_encoding.md R79). There is no name for the unused tag 6. -/
inductive ErrTag where
  /-- DECODE check 1. -/
  | startOfMinute
  /-- DECODE check 2. -/
  | cetCestFlags
  /-- DECODE check 3. -/
  | startOfTime
  /-- DECODE check 4. -/
  | minutes
  /-- DECODE check 5. -/
  | hours
  /-- DECODE check 7. -/
  | date
  /-- DECODE check 8. -/
  | endOfMinute
  /-- DECODE check 9. -/
  | invalidDate
  /-- DECODE check 10. -/
  | weekday
  /-- DECODE check 11. -/
  | timezoneOffset
  /-- DECODE check 12. -/
  | announcement
  /-- The word is no frame. -/
  | frameWord
  /-- The string is no frame. -/
  | frameString
  /-- An operand outside the domain. -/
  | operand
  deriving DecidableEq, Repr

/-- The detail of an ARGUMENT error (30_encoding.md R80). There is no name for the reserved sub 7. -/
inductive ErrSub where
  /-- Every error other than ARGUMENT. -/
  | noDetail
  /-- Bit index out of the domain. -/
  | index
  /-- Operand value out of the domain. -/
  | value
  /-- Not a civil datetime, or a time at or after `TZ_CUTOFF`. -/
  | datetime
  /-- Gap hour. -/
  | gapHour
  /-- Fallback hour. -/
  | fallbackHour
  /-- Reserved `op`. -/
  | reservedOp
  deriving DecidableEq, Repr

/-- The faults of the block: none. "Errors are response values, not traps" (60_exceptions.md R220, R226), so the type has
no constructor and no step can fault (log 6). -/
inductive Fault where
  deriving DecidableEq, Repr

/-- Why an operation would have no meaning in the model. -/
inductive Refusal where
  /-- Raised by an arm of `exec` whose operation has no meaning yet; no arm raises it now. Safe: the machine stops. -/
  | notModelled (mnemonic : String)
  deriving DecidableEq, Repr

/-- The machine as its host sees it. The block itself stores nothing (10_state.md R20, R25 to R30); no operation reads
either field (log 1). -/
structure State where
  /-- Requests presented and not yet answered; the first is the one on the request port (10_state.md R21, R26). -/
  requests : List Request
  /-- Responses delivered, oldest first: the host's observable end state (10_state.md R23, 70_reset_and_hazards.md R255). -/
  responses : List Response
  deriving DecidableEq, Repr

/-- "A model's initial state is 'no response yet'", before the first request (70_reset_and_hazards.md R250, 10_state.md R31;
log 3). -/
def State.reset : State := { requests := [], responses := [] }

end Sys2Proof.Machine
end

