-- ==== Sys2Proof/Machine/Flags.lean ====
section
/-! DEFINITION. The status of a response: codes of the error kinds, tags and details. The block has no flags (10_state.md
R27): these fields belong to one response and no later operation reads them. -/

namespace Sys2Proof.Machine

/-- `err_kind` codes (30_encoding.md R78). -/
def ErrKind.code : ErrKind → BitVec 3
  | .structural => 1
  | .parity => 2
  | .consistency => 3
  | .argument => 4

/-- `err_tag` codes (30_encoding.md R79): the decoder's check numbers, then the spec's own tags 13 to 15. -/
def ErrTag.code : ErrTag → BitVec 4
  | .startOfMinute => 1
  | .cetCestFlags => 2
  | .startOfTime => 3
  | .minutes => 4
  | .hours => 5
  | .date => 7
  | .endOfMinute => 8
  | .invalidDate => 9
  | .weekday => 10
  | .timezoneOffset => 11
  | .announcement => 12
  | .frameWord => 13
  | .frameString => 14
  | .operand => 15

/-- `err_sub` codes (30_encoding.md R80). -/
def ErrSub.code : ErrSub → BitVec 3
  | .noDetail => 0
  | .index => 1
  | .value => 2
  | .datetime => 3
  | .gapHour => 4
  | .fallbackHour => 5
  | .reservedOp => 6

end Sys2Proof.Machine
end

