-- ==== Sys2Proof/Machine/Ops.lean ====
section
/-! DEFINITION. The operations every meaning shares: raising an error, returning a result, delivering the response, and
taking the next request. The block has no memory and no registers (20_memory.md R40, 10_state.md R25), so there is no
operation over them. -/

namespace Sys2Proof.Machine

/-- `raise Error(kind, tag, sub)` (00_scope.md R10): the one way an operation reports an error. Every result field is 0 and
`err_word` is what the operation puts there (30_encoding.md R81). -/
def raise (kind : ErrKind) (tag : ErrTag) (sub : ErrSub) (errWord : Word) : Response :=
  { Response.zero with errKind := kind.code, errTag := tag.code, errSub := sub.code, errWord := errWord }

/-- The `err_word` of an operation that reads `a`: a copy of it (30_encoding.md R81). -/
def copyOfA (a : Nat) : Word := BitVec.ofNat 64 a

/-- The `err_word` of an operation that does not read `a` (30_encoding.md R81). -/
def noWord : Word := 0

/-- ARGUMENT errors: tag 15 and a detail (30_encoding.md R79, R80). -/
def raiseArgument (sub : ErrSub) (errWord : Word) : Response := raise .argument .operand sub errWord

/-- `rsp.r <- v; return`: status NONE, every field but `r` 0 (10_state.md R24). -/
def returnScalar (v : Nat) : Response := { Response.zero with r := BitVec.ofNat 64 v }

/-- The success of DECODE: the `q` fields, every other field 0 (10_state.md R24, 43_decoder.md R184). -/
def returnDatetime (year month day hour minute : Nat) (cest : Bool) : Response :=
  { Response.zero with
    qYear := BitVec.ofNat 12 year, qMonth := BitVec.ofNat 4 month, qDay := BitVec.ofNat 5 day,
    qHour := BitVec.ofNat 5 hour, qMinute := BitVec.ofNat 6 minute, qCest := BitVec.ofBool cest }

/-- Deliver a response whole (20_memory.md R46). The block keeps no record of it (60_exceptions.md R220); the list is the
host's. -/
def State.deliver (s : State) (rsp : Response) : State := { s with responses := s.responses ++ [rsp] }

/-- An operation ends by delivering its one response (60_exceptions.md R220). -/
def State.respond (s : State) (rsp : Response) : Host.Outcome State Fault Refusal := .next (s.deliver rsp)

/-- The request on the port, taken from the host's queue. -/
def State.takeRequest (s : State) : Option (Request × State) :=
  match s.requests with
  | [] => none
  | req :: rest => some (req, { s with requests := rest })

/-- The host puts a request on the port, in front of those still waiting (30_encoding.md R65, 70_reset_and_hazards.md R256). -/
def State.issue (s : State) (req : Request) : State := { s with requests := req :: s.requests }

/-- The host puts one more request behind those it presented (10_state.md R26). -/
def State.present (s : State) (req : Request) : State := { s with requests := s.requests ++ [req] }

/-- A host read of the response port. It has no value before the first response (10_state.md R31, 70_reset_and_hazards.md
R250). Once there is one it gives the last response delivered, on every read and whatever requests wait: DESIGN CHOICE
(log 16), for the spec says nothing of a read after the first response. -/
def State.readResponse (s : State) : Option Response := s.responses.getLast?

end Sys2Proof.Machine
end

