-- ==== Sys2Proof/Machine/BitField.lean ====
section
/-! DEFINITION. The bit-field utilities EXTRACT, BCD_DEC, BCD_ENC and PARITY (40_bitfield.md R100 to R108). Values are
natural numbers that do not wrap (00_scope.md R9). -/

namespace Sys2Proof.Machine

/-- `extract(x, lo, hi)` = `x[hi:lo]` (40_bitfield.md R100, 00_scope.md R8). -/
def extractBits (x lo hi : Nat) : Nat := (x >>> lo) &&& (2 ^ (hi - lo + 1) - 1)

/-- The single bit `x[i]`, 0 or 1 (00_scope.md R8). -/
def bitAt (x i : Nat) : Nat := (x.testBit i).toNat

/-- The number of 1 bits among the `n` lowest bits of `v`. -/
def onesBelow : Nat → Nat → Nat
  | 0, _ => 0
  | n + 1, v => onesBelow n v + bitAt v n

/-- `popcount(v)` of a 64-bit word (00_scope.md R9). -/
def popcount (v : Nat) : Nat := onesBelow Config.wordBits v

/-- `parity(v)`: 1 exactly when the count of 1 bits is odd (40_bitfield.md R106). -/
def parityOf (v : Nat) : Nat := popcount v % 2

/-- `parity(x, lo, hi)` (40_bitfield.md R106). -/
def parityOfRange (x lo hi : Nat) : Nat := parityOf (extractBits x lo hi)

/-- `bcd_dec(b)`: high nibble times 10 plus low nibble; a nibble of 10..15 is not rejected (40_bitfield.md R102, R103). -/
def bcdDecode (b : Nat) : Nat := extractBits b 4 7 * 10 + extractBits b 0 3

/-- `bcd_enc(n)` for `n` ≤ 99 (40_bitfield.md R104). -/
def bcdEncode (n : Nat) : Nat := ((n / 10) <<< 4) ||| (n % 10)

/-- The response to EXTRACT (40_bitfield.md R100). -/
def extractResponse (a lo hi : Nat) : Response :=
  if lo > hi then raiseArgument .index (copyOfA a) else returnScalar (extractBits a lo hi)

/-- The response to BCD_DEC (40_bitfield.md R102). -/
def bcdDecResponse (a : Nat) : Response :=
  if a > 0xFF then raiseArgument .value (copyOfA a) else returnScalar (bcdDecode a)

/-- The response to BCD_ENC (40_bitfield.md R104). -/
def bcdEncResponse (a : Nat) : Response :=
  if a > Config.bcdEncMax then raiseArgument .value (copyOfA a) else returnScalar (bcdEncode a)

/-- The response to PARITY (40_bitfield.md R106). -/
def parityResponse (a lo hi : Nat) : Response :=
  if lo > hi then raiseArgument .index (copyOfA a) else returnScalar (parityOfRange a lo hi)

/-- EXTRACT (40_bitfield.md R100). -/
def execExtract (a lo hi : Nat) (s : State) : Host.Outcome State Fault Refusal := s.respond (extractResponse a lo hi)

/-- BCD_DEC (40_bitfield.md R102). -/
def execBcdDec (a : Nat) (s : State) : Host.Outcome State Fault Refusal := s.respond (bcdDecResponse a)

/-- BCD_ENC (40_bitfield.md R104). -/
def execBcdEnc (a : Nat) (s : State) : Host.Outcome State Fault Refusal := s.respond (bcdEncResponse a)

/-- PARITY (40_bitfield.md R106). -/
def execParity (a lo hi : Nat) (s : State) : Host.Outcome State Fault Refusal := s.respond (parityResponse a lo hi)

end Sys2Proof.Machine
end

