-- ==== Sys2Proof/Machine/Frame.lean ====
section
/-! DEFINITION. Frame construction and accessors: FRAME_FROM_WORD, FRAME_FROM_STRING, BIT and RANGE (41_frame.md R120 to
R125). -/

namespace Sys2Proof.Machine

/-- `is_frame(x)`: the word's bits 63..60 are zero (41_frame.md R120). -/
def isFrame (x : Nat) : Bool := x >>> Config.frameBits == 0

/-- The character `'0'` (20_memory.md R42). -/
def charZero : Byte := 0x30

/-- The character `'1'` (20_memory.md R42). -/
def charOne : Byte := 0x31

/-- The bit a character stands for; none for any other byte (41_frame.md R122). -/
def charBit (c : Byte) : Option Nat :=
  if c = charZero then some 0 else if c = charOne then some 1 else none

/-- The word whose bit `i` is the character at position `i`, none if some character is neither `'0'` nor `'1'`
(41_frame.md R122, 20_memory.md R42). The first character is the least significant bit. -/
def wordOfChars : List Byte → Option Nat
  | [] => some 0
  | c :: rest =>
    match charBit c, wordOfChars rest with
    | some b, some x => some (b ||| (x <<< 1))
    | _, _ => none

/-- The response to FRAME_FROM_WORD (41_frame.md R121). -/
def frameFromWordResponse (a : Nat) : Response :=
  if !isFrame a then raise .structural .frameWord .noDetail (copyOfA a) else returnScalar a

/-- The response to FRAME_FROM_STRING (41_frame.md R122): the length first, then the characters at positions 0..59. -/
def frameFromStringResponse (sLen : Nat) (str : List Byte) : Response :=
  if sLen ≠ Config.strFrameLen then raise .structural .frameString .noDetail noWord
  else
    match wordOfChars (str.take Config.frameBits) with
    | none => raise .structural .frameString .noDetail noWord
    | some x => returnScalar x

/-- The response to BIT (41_frame.md R124): the frame test comes before the index test. -/
def bitResponse (a lo : Nat) : Response :=
  if !isFrame a then raise .structural .frameWord .noDetail (copyOfA a)
  else if lo > 59 then raiseArgument .index (copyOfA a)
  else returnScalar (bitAt a lo)

/-- The response to RANGE (41_frame.md R125): the frame test comes before the index test. -/
def rangeResponse (a lo hi : Nat) : Response :=
  if !isFrame a then raise .structural .frameWord .noDetail (copyOfA a)
  else if lo > hi ∨ hi > 59 then raiseArgument .index (copyOfA a)
  else returnScalar (extractBits a lo hi)

/-- FRAME_FROM_WORD (41_frame.md R121). -/
def execFrameFromWord (a : Nat) (s : State) : Host.Outcome State Fault Refusal := s.respond (frameFromWordResponse a)

/-- FRAME_FROM_STRING (41_frame.md R122). -/
def execFrameFromString (sLen : Nat) (str : List Byte) (s : State) : Host.Outcome State Fault Refusal :=
  s.respond (frameFromStringResponse sLen str)

/-- BIT (41_frame.md R124). -/
def execBit (a lo : Nat) (s : State) : Host.Outcome State Fault Refusal := s.respond (bitResponse a lo)

/-- RANGE (41_frame.md R125). -/
def execRange (a lo hi : Nat) (s : State) : Host.Outcome State Fault Refusal := s.respond (rangeResponse a lo hi)

end Sys2Proof.Machine
end

