-- ==== Sys2Proof/Machine/Calendar.lean ====
section
/-! DEFINITION. The Gregorian calendar and minute counts (42_calendar_zone.md R140 to R144). Values are integers that do not
wrap; `/` and `%` by a positive number are the floor `div` and `mod` of 00_scope.md R9. The rules are the spec's supply from
general knowledge (93_implementation_defined.md K2 to K5; log 9). -/

namespace Sys2Proof.Machine

/-- A civil datetime: year, month, day, hour and minute, no seconds (00_scope.md R11). -/
structure Civil where
  /-- Year; negative only inside the calendar functions (00_scope.md R9). -/
  year : Int
  /-- Month 1..12. -/
  month : Int
  /-- Day of month 1..31. -/
  day : Int
  /-- Hour 0..23. -/
  hour : Int
  /-- Minute 0..59. -/
  minute : Int
  deriving DecidableEq, Repr

/-- `is_leap(Y)` (42_calendar_zone.md R140). -/
def isLeap (year : Int) : Bool := (year % 4 == 0 && year % 100 != 0) || year % 400 == 0

/-- `days_in_month(Y, M)` for months 1..12 (42_calendar_zone.md R140). -/
def daysInMonth (year month : Int) : Int :=
  if month = 2 then if isLeap year then 29 else 28
  else if month = 4 ∨ month = 6 ∨ month = 9 ∨ month = 11 then 30
  else 31

/-- `bool(c)` as a number (00_scope.md R9). -/
def boolInt (c : Bool) : Int := if c then 1 else 0

/-- `days_from_civil(Y, M, D)`: days from 1970-01-01 (42_calendar_zone.md R141). -/
def daysFromCivil (year month day : Int) : Int :=
  let y := year - boolInt (month ≤ 2)
  let era := y / 400
  let yoe := y - era * 400
  let mp := (month + 9) % 12
  let doy := (153 * mp + 2) / 5 + day - 1
  let doe := yoe * 365 + yoe / 4 - yoe / 100 + doy
  era * 146097 + doe - 719468

/-- `civil_from_days(z)`: year, month and day of a day count (42_calendar_zone.md R141). -/
def civilFromDays (days : Int) : Int × Int × Int :=
  let z := days + 719468
  let era := z / 146097
  let doe := z - era * 146097
  let yoe := (doe - doe / 1460 + doe / 36524 - doe / 146096) / 365
  let doy := doe - (365 * yoe + yoe / 4 - yoe / 100)
  let mp := (5 * doy + 2) / 153
  let day := doy - (153 * mp + 2) / 5 + 1
  let month := if mp < 10 then mp + 3 else mp - 9
  let year := yoe + era * 400 + boolInt (month ≤ 2)
  (year, month, day)

/-- `minutes(Y, M, D, h, m)` since 1970-01-01T00:00 (42_calendar_zone.md R142). -/
def minutesOf (c : Civil) : Int := daysFromCivil c.year c.month c.day * 1440 + c.hour * 60 + c.minute

/-- `civil(t)`, the civil datetime of a minute count (42_calendar_zone.md R142). -/
def civilOf (t : Int) : Civil :=
  let date := civilFromDays (t / 1440)
  { year := date.1, month := date.2.1, day := date.2.2, hour := t % 1440 / 60, minute := t % 60 }

/-- `valid_civil` (42_calendar_zone.md R143). -/
def validCivil (c : Civil) : Bool :=
  decide (1 ≤ c.month ∧ c.month ≤ 12 ∧ 1 ≤ c.day ∧ c.day ≤ daysInMonth c.year c.month ∧
    0 ≤ c.hour ∧ c.hour ≤ 23 ∧ 0 ≤ c.minute ∧ c.minute ≤ 59)

/-- `weekday(Y, M, D)`: 1 for Monday through 7 for Sunday (42_calendar_zone.md R144). -/
def weekdayOf (year month day : Int) : Int := (daysFromCivil year month day + 3) % 7 + 1

/-- Going down from `day`, at most `fuel` days, to the first Sunday. -/
def sundayDownFrom (year month : Int) : Nat → Int → Int
  | 0, day => day
  | fuel + 1, day => if weekdayOf year month day = 7 then day else sundayDownFrom year month fuel (day - 1)

/-- `last_sunday(Y, M)`: the largest day of the month that is a Sunday (42_calendar_zone.md R151), found among the last
seven days (70_reset_and_hazards.md R255). -/
def lastSunday (year month : Int) : Int := sundayDownFrom year month 7 (daysInMonth year month)

end Sys2Proof.Machine
end

