-- ==== Sys2Proof/Machine/Zone.lean ====
section
/-! DEFINITION. The Central-European zone functions (42_calendar_zone.md R150 to R155), over the parameters `ZONE` and
`TZ_CUTOFF`. -/

namespace Sys2Proof.Machine

open Sys2Proof.Config

/-- The default `ZONE`: summer time from 01:00 UTC on the last Sunday of March to 01:00 UTC on the last Sunday of October, in
every year (42_calendar_zone.md R150; the spec's general knowledge K6, log 9). -/
def centralEuropean : Zone :=
  { summerStart := fun year => minutesOf { year := year, month := 3, day := lastSunday year 3, hour := 1, minute := 0 }
    summerEnd := fun year => minutesOf { year := year, month := 10, day := lastSunday year 10, hour := 1, minute := 0 } }

/-- The parameters of this hardware (00_scope.md R7). -/
def hardware : Params := { zone := centralEuropean, cutoff := Config.tzCutoff }

/-- The instant lies at or after `TZ_CUTOFF` (42_calendar_zone.md R152). -/
def atOrAfterCutoff (P : Params) (t : Int) : Bool :=
  match P.cutoff with
  | none => false
  | some c => decide (c ≤ t)

/-- `offset_at(t)`; none is UNDEFINED (42_calendar_zone.md R150). -/
def offsetAt (P : Params) (t : Int) : Option Int :=
  if atOrAfterCutoff P t then none
  else
    let year := (civilOf t).year
    if P.zone.summerStart year ≤ t ∧ t < P.zone.summerEnd year then some cestOffset else some cetOffset

/-- `next_transition(t)`: the earliest transition strictly after `t` (42_calendar_zone.md R153). -/
def nextTransition (P : Params) (t : Int) : Option Int :=
  let year := (civilOf t).year
  let n :=
    if t < P.zone.summerStart year then P.zone.summerStart year
    else if t < P.zone.summerEnd year then P.zone.summerEnd year
    else P.zone.summerStart (year + 1)
  if atOrAfterCutoff P n then none else some n

/-- `announce(t)` (42_calendar_zone.md R155). -/
def announce (P : Params) (t : Int) : Option Bool :=
  match nextTransition P t with
  | none => none
  | some n => some (decide (n - t ≤ announceWindow))

/-- `cands`: the offsets the zone admits for the local minute count `L` (42_calendar_zone.md R154, 44_encoder.md R203).
UNDEFINED never equals an offset. -/
def localOffsets (P : Params) (L : Int) : List Int :=
  [cetOffset, cestOffset].filter fun o => offsetAt P (L - o) == some o

/-- The offset of a local time among its candidates: none in the gap hour, the hint's in the fallback hour
(42_calendar_zone.md R154). -/
def chooseOffset (cestHint : Bool) : List Int → Option Int
  | [] => none
  | [o] => some o
  | _ => some (if cestHint then cestOffset else cetOffset)

/-- `zone_local`: the instant and offset of a local civil datetime, none for NONEXISTENT (42_calendar_zone.md R154). -/
def zoneLocal (P : Params) (c : Civil) (cestHint : Bool) : Option (Int × Int) :=
  match chooseOffset cestHint (localOffsets P (minutesOf c)) with
  | none => none
  | some o => some (minutesOf c - o, o)

end Sys2Proof.Machine
end

