-- ==== Sys2Proof/Machine/Decoder.lean ====
section
/-! DEFINITION. DECODE: the frame validator with its ordered fail-fast checks (43_decoder.md R170 to R186). -/

namespace Sys2Proof.Machine

open Sys2Proof.Config

/-- The fields of a frame that the decoder reads as numbers (43_decoder.md R175 to R177, 30_encoding.md R70, R71). -/
structure FrameFields where
  /-- `bcd_dec(x[27:21])`. -/
  minute : Nat
  /-- `bcd_dec(x[34:29])`. -/
  hour : Nat
  /-- `bcd_dec(x[41:36])`. -/
  day : Nat
  /-- `bcd_dec(x[44:42])`. -/
  wday : Nat
  /-- `bcd_dec(x[49:45])`. -/
  month : Nat
  /-- `bcd_dec(x[57:50]) + 2000`. -/
  year : Nat
  deriving DecidableEq, Repr

/-- The BCD fields of a frame, the year in the fixed century (43_decoder.md R175 to R177). -/
def frameFields (x : Nat) : FrameFields :=
  { minute := bcdDecode (extractBits x 21 27), hour := bcdDecode (extractBits x 29 34),
    day := bcdDecode (extractBits x 36 41), wday := bcdDecode (extractBits x 42 44),
    month := bcdDecode (extractBits x 45 49), year := bcdDecode (extractBits x 50 57) + centuryBase }

/-- The local civil datetime the fields give. -/
def FrameFields.civil (f : FrameFields) : Civil :=
  { year := f.year, month := f.month, day := f.day, hour := f.hour, minute := f.minute }

/-- The offset the CET/CEST flags claim (43_decoder.md R182). -/
def claimedOffset (x : Nat) : Int := if bitAt x 17 = 1 then cestOffset else cetOffset

/-- The announcement bit agrees with the zone, or there is no future transition and the check is skipped (43_decoder.md
R183). -/
def announcementAgrees (P : Params) (x : Nat) (t : Int) : Bool :=
  match announce P t with
  | none => true
  | some v => bitAt x 16 == v.toNat

/-- Checks 10 to 12 and the result, for a frame whose datetime is the instant `t` at offset `o` (43_decoder.md R181 to R184). -/
def decodeZoned (P : Params) (x : Nat) (t o : Int) : Response :=
  let f := frameFields x
  if weekdayOf f.year f.month f.day ≠ f.wday then raise .consistency .weekday .noDetail (copyOfA x)
  else if o ≠ claimedOffset x then raise .consistency .timezoneOffset .noDetail (copyOfA x)
  else if !announcementAgrees P x t then raise .consistency .announcement .noDetail (copyOfA x)
  else returnDatetime f.year f.month f.day f.hour f.minute (o == cestOffset)

/-- Check 9 and what follows it (43_decoder.md R180). -/
def decodeDatetime (P : Params) (x : Nat) : Response :=
  let c := (frameFields x).civil
  if !validCivil c then raise .structural .invalidDate .noDetail (copyOfA x)
  else
    match zoneLocal P c (bitAt x 17 == 1) with
    | none => raise .structural .invalidDate .noDetail (copyOfA x)
    | some (t, o) => decodeZoned P x t o

/-- The response to DECODE: checks 0 to 8 in their order, then the datetime (43_decoder.md R170, R171). The first violated
check is the only error reported. -/
def decodeResponse (P : Params) (x : Nat) : Response :=
  if !isFrame x then raise .structural .frameWord .noDetail (copyOfA x)
  else if bitAt x 0 ≠ 0 then raise .structural .startOfMinute .noDetail (copyOfA x)
  else if bitAt x 17 = bitAt x 18 then raise .consistency .cetCestFlags .noDetail (copyOfA x)
  else if bitAt x 20 ≠ 1 then raise .structural .startOfTime .noDetail (copyOfA x)
  else if parityOfRange x 21 27 ≠ bitAt x 28 then raise .parity .minutes .noDetail (copyOfA x)
  else if parityOfRange x 29 34 ≠ bitAt x 35 then raise .parity .hours .noDetail (copyOfA x)
  else if parityOfRange x 36 57 ≠ bitAt x 58 then raise .parity .date .noDetail (copyOfA x)
  else if bitAt x 59 ≠ 0 then raise .structural .endOfMinute .noDetail (copyOfA x)
  else decodeDatetime P x

/-- DECODE (43_decoder.md R170). -/
def execDecode (a : Nat) (s : State) : Host.Outcome State Fault Refusal := s.respond (decodeResponse hardware a)

end Sys2Proof.Machine
end

