-- ==== Sys2Proof/Machine/Encoder.lean ====
section
/-! DEFINITION. ENCODE and ENCODE_LOCAL: the frame encoder (44_encoder.md R200, R201, R203). -/

namespace Sys2Proof.Machine

open Sys2Proof.Config

/-- `put(x, lo, hi, v) = x | (v << lo)`, on a word whose field is still zero (44_encoder.md R201). -/
def putField (x lo v : Nat) : Nat := x ||| (v <<< lo)

/-- Bits 16 to 18 and 20: announcement, CEST flag, CET flag and start-of-time marker (44_encoder.md R201). -/
def frameFlags (announced summer : Bool) : Nat :=
  (if announced then 1 <<< 16 else 0) ||| (if summer then 1 <<< 17 else 1 <<< 18) ||| 1 <<< 20

/-- The six BCD fields of a local civil datetime (44_encoder.md R201). -/
def putDatetime (x : Nat) (c : Civil) : Nat :=
  let x := putField x 21 (bcdEncode c.minute.toNat)
  let x := putField x 29 (bcdEncode c.hour.toNat)
  let x := putField x 36 (bcdEncode c.day.toNat)
  let x := putField x 42 (bcdEncode (weekdayOf c.year c.month c.day).toNat)
  let x := putField x 45 (bcdEncode c.month.toNat)
  putField x 50 (bcdEncode (c.year % 100).toNat)

/-- The three parity bits, each from its range as just written (44_encoder.md R201, 30_encoding.md R72). -/
def putParity (x : Nat) : Nat :=
  let x := x ||| (parityOfRange x 21 27 <<< 28)
  let x := x ||| (parityOfRange x 29 34 <<< 35)
  x ||| (parityOfRange x 36 57 <<< 58)

/-- `frame_of(t)` for an instant at offset `o` (44_encoder.md R201). Bit 16 is 0 when there is no next transition. -/
def frameAt (P : Params) (t o : Int) : Nat :=
  putParity (putDatetime (frameFlags (announce P t == some true) (o == cestOffset)) (civilOf (t + o)))

/-- The request's datetime fields as a civil datetime (30_encoding.md R64, R77). -/
def requestCivil (year month day hour minute : Nat) : Civil :=
  { year := year, month := month, day := day, hour := hour, minute := minute }

/-- The response to ENCODE (44_encoder.md R200). -/
def encodeResponse (P : Params) (c : Civil) : Response :=
  if !validCivil c then raiseArgument .datetime noWord
  else
    match offsetAt P (minutesOf c) with
    | none => raiseArgument .datetime noWord
    | some o => returnScalar (frameAt P (minutesOf c) o)

/-- The response to ENCODE_LOCAL (44_encoder.md R203): validity, then the horizon, then the gap and the fallback hour. -/
def encodeLocalResponse (P : Params) (c : Civil) : Response :=
  if !validCivil c then raiseArgument .datetime noWord
  else if (offsetAt P (minutesOf c - cetOffset)).isNone then raiseArgument .datetime noWord
  else
    match localOffsets P (minutesOf c) with
    | [] => raiseArgument .gapHour noWord
    | [o] => returnScalar (frameAt P (minutesOf c - o) o)
    | _ => raiseArgument .fallbackHour noWord

/-- ENCODE (44_encoder.md R200). -/
def execEncode (year month day hour minute : Nat) (s : State) : Host.Outcome State Fault Refusal :=
  s.respond (encodeResponse hardware (requestCivil year month day hour minute))

/-- ENCODE_LOCAL (44_encoder.md R203). -/
def execEncodeLocal (year month day hour minute : Nat) (s : State) : Host.Outcome State Fault Refusal :=
  s.respond (encodeLocalResponse hardware (requestCivil year month day hour minute))

end Sys2Proof.Machine
end

