-- ==== Sys2Proof/Machine/Reserved.lean ====
section
/-! DEFINITION. The reserved operation codes (30_encoding.md R63). -/

namespace Sys2Proof.Machine

/-- What every reserved code answers: ARGUMENT 15/6, `err_word` = 0, no other effect (30_encoding.md R63). -/
def reservedResponse : Response := raiseArgument .reservedOp noWord

/-- RESERVED_0 (30_encoding.md R63). -/
def execReserved0 (s : State) : Host.Outcome State Fault Refusal := s.respond reservedResponse

/-- RESERVED_C (30_encoding.md R63). -/
def execReservedC (s : State) : Host.Outcome State Fault Refusal := s.respond reservedResponse

/-- RESERVED_D (30_encoding.md R63). -/
def execReservedD (s : State) : Host.Outcome State Fault Refusal := s.respond reservedResponse

/-- RESERVED_E (30_encoding.md R63). -/
def execReservedE (s : State) : Host.Outcome State Fault Refusal := s.respond reservedResponse

/-- RESERVED_F (30_encoding.md R63). -/
def execReservedF (s : State) : Host.Outcome State Fault Refusal := s.respond reservedResponse

end Sys2Proof.Machine
end

