-- ==== Sys2Proof/Machine/Dispatch.lean ====
section
/-! DEFINITION. One arm for each row of spec/opcode_table.json, in the table's order. -/

namespace Sys2Proof.Machine

def exec (i : Instr) (s : State) : Host.Outcome State Fault Refusal :=
  match i with
  | .reserved0 => Sys2Proof.Machine.execReserved0 s
  | .extract a lo hi => Sys2Proof.Machine.execExtract a lo hi s
  | .bcdDec a => Sys2Proof.Machine.execBcdDec a s
  | .bcdEnc a => Sys2Proof.Machine.execBcdEnc a s
  | .parity a lo hi => Sys2Proof.Machine.execParity a lo hi s
  | .frameFromWord a => Sys2Proof.Machine.execFrameFromWord a s
  | .frameFromString sLen str => Sys2Proof.Machine.execFrameFromString sLen str s
  | .bit a lo => Sys2Proof.Machine.execBit a lo s
  | .range a lo hi => Sys2Proof.Machine.execRange a lo hi s
  | .decode a => Sys2Proof.Machine.execDecode a s
  | .encode year month day hour minute => Sys2Proof.Machine.execEncode year month day hour minute s
  | .encodeLocal year month day hour minute => Sys2Proof.Machine.execEncodeLocal year month day hour minute s
  | .reservedC => Sys2Proof.Machine.execReservedC s
  | .reservedD => Sys2Proof.Machine.execReservedD s
  | .reservedE => Sys2Proof.Machine.execReservedE s
  | .reservedF => Sys2Proof.Machine.execReservedF s

end Sys2Proof.Machine
end

