-- ==== Sys2Proof/WellFormed.lean ====
section
/-! DEFINITION. Well-formed operations: every operand fits its request field (30_encoding.md R64, 10_state.md R21). -/

namespace Sys2Proof

/-- `a` fits its 64-bit field. -/
def wordFits (a : Nat) : Bool := decide (a < 2 ^ 64)

/-- A bit index fits its 6-bit field: 0..63. -/
def indexFits (i : Nat) : Bool := decide (i < 64)

/-- The string fits its port: a length of 0..255 and exactly the 60 bytes `s[0..59]`. -/
def stringFits (sLen : Nat) (str : List Byte) : Bool := decide (sLen < 256) && decide (str.length = 60)

/-- The datetime fits its ports: 12, 4, 5, 5 and 6 bits. -/
def datetimeFits (year month day hour minute : Nat) : Bool :=
  decide (year < 4096) && decide (month < 16) && decide (day < 32) && decide (hour < 32) && decide (minute < 64)

/-- The operands fit their request fields. That a value is outside the operation's domain (a BCD_ENC operand above 99,
month 13) is no fault of form: the operation answers it with an error response. -/
def Instr.wf : Instr → Bool
  | .reserved0 => true
  | .extract a lo hi => wordFits a && indexFits lo && indexFits hi
  | .bcdDec a => wordFits a
  | .bcdEnc a => wordFits a
  | .parity a lo hi => wordFits a && indexFits lo && indexFits hi
  | .frameFromWord a => wordFits a
  | .frameFromString sLen str => stringFits sLen str
  | .bit a lo => wordFits a && indexFits lo
  | .range a lo hi => wordFits a && indexFits lo && indexFits hi
  | .decode a => wordFits a
  | .encode year month day hour minute => datetimeFits year month day hour minute
  | .encodeLocal year month day hour minute => datetimeFits year month day hour minute
  | .reservedC => true
  | .reservedD => true
  | .reservedE => true
  | .reservedF => true

end Sys2Proof
end

