-- ==== Sys2Proof/Decode.lean ====
section
/-! DEFINITION. The decoder and the encoder of requests: `op` alone selects the operation (30_encoding.md R60 to R64). -/

namespace Sys2Proof

/-- Decoding is total: each of the 16 values of `op` selects one row of 30_encoding.md R62 (R61), and only the fields of
10_state.md R22 are read. -/
def decode (req : Request) : Instr :=
  match req.op with
  | 0x1#4 => .extract req.a.toNat req.lo.toNat req.hi.toNat
  | 0x2#4 => .bcdDec req.a.toNat
  | 0x3#4 => .bcdEnc req.a.toNat
  | 0x4#4 => .parity req.a.toNat req.lo.toNat req.hi.toNat
  | 0x5#4 => .frameFromWord req.a.toNat
  | 0x6#4 => .frameFromString req.sLen.toNat req.s.toList
  | 0x7#4 => .bit req.a.toNat req.lo.toNat
  | 0x8#4 => .range req.a.toNat req.lo.toNat req.hi.toNat
  | 0x9#4 => .decode req.a.toNat
  | 0xA#4 => .encode req.dtYear.toNat req.dtMonth.toNat req.dtDay.toNat req.dtHour.toNat req.dtMinute.toNat
  | 0xB#4 => .encodeLocal req.dtYear.toNat req.dtMonth.toNat req.dtDay.toNat req.dtHour.toNat req.dtMinute.toNat
  | 0xC#4 => .reservedC
  | 0xD#4 => .reservedD
  | 0xE#4 => .reservedE
  | 0xF#4 => .reservedF
  | _ => .reserved0

/-- The string port holding `str`: position `i` is byte `s[i]`, and positions the string does not reach are 0
(95_test_vectors.md §3: fields not listed are 0). -/
def stringPort (str : List Byte) : Vector Byte 60 :=
  ⟨((str ++ List.replicate 60 0#8).take 60).toArray, by simp⟩

/-- A request with the operation code `op` and every other field 0. -/
def bareRequest (op : BitVec 4) : Request :=
  { op := op, a := 0, lo := 0, hi := 0, sLen := 0, s := stringPort [],
    dtYear := 0, dtMonth := 0, dtDay := 0, dtHour := 0, dtMinute := 0 }

/-- A request of an operation that reads `a`. -/
def wordRequest (op : BitVec 4) (a : Nat) : Request :=
  { bareRequest op with a := BitVec.ofNat 64 a }

/-- A request of an operation that reads `a`, `lo` and `hi`. -/
def rangeRequest (op : BitVec 4) (a lo hi : Nat) : Request :=
  { bareRequest op with a := BitVec.ofNat 64 a, lo := BitVec.ofNat 6 lo, hi := BitVec.ofNat 6 hi }

/-- A request of an operation that reads the datetime fields. -/
def datetimeRequest (op : BitVec 4) (year month day hour minute : Nat) : Request :=
  { bareRequest op with
    dtYear := BitVec.ofNat 12 year, dtMonth := BitVec.ofNat 4 month, dtDay := BitVec.ofNat 5 day,
    dtHour := BitVec.ofNat 5 hour, dtMinute := BitVec.ofNat 6 minute }

/-- The request of an operation, from the codes of 30_encoding.md R62. Fields the operation does not read are 0
(95_test_vectors.md §3; log 5). -/
def encode : Instr → Request
  | .reserved0 => bareRequest 0x0#4
  | .extract a lo hi => rangeRequest 0x1#4 a lo hi
  | .bcdDec a => wordRequest 0x2#4 a
  | .bcdEnc a => wordRequest 0x3#4 a
  | .parity a lo hi => rangeRequest 0x4#4 a lo hi
  | .frameFromWord a => wordRequest 0x5#4 a
  | .frameFromString sLen str => { bareRequest 0x6#4 with sLen := BitVec.ofNat 8 sLen, s := stringPort str }
  | .bit a lo => rangeRequest 0x7#4 a lo 0
  | .range a lo hi => rangeRequest 0x8#4 a lo hi
  | .decode a => wordRequest 0x9#4 a
  | .encode year month day hour minute => datetimeRequest 0xA#4 year month day hour minute
  | .encodeLocal year month day hour minute => datetimeRequest 0xB#4 year month day hour minute
  | .reservedC => bareRequest 0xC#4
  | .reservedD => bareRequest 0xD#4
  | .reservedE => bareRequest 0xE#4
  | .reservedF => bareRequest 0xF#4

/-! ### The bundle as one word and as bytes

DESIGN CHOICE (log 4): the spec gives the fields and their widths and no order of them in one word. Here the fields of
10_state.md R21 follow one another in R21's order, the first at bit 0: 600 bits, or 75 bytes. -/

/-- The number whose byte `k`, least significant first, is element `k`. -/
def bytesToNat : List Byte → Nat
  | [] => 0
  | b :: rest => b.toNat + 256 * bytesToNat rest

/-- The `count` lowest bytes of `n`, least significant first. -/
def natToBytes : Nat → Nat → List Byte
  | 0, _ => []
  | count + 1, n => BitVec.ofNat 8 n :: natToBytes count (n / 256)

/-- The bundle as one number, the fields from bit 0 up in the order of 10_state.md R21. -/
def Request.toBits (q : Request) : Nat :=
  q.op.toNat + 2 ^ 4 * (q.a.toNat + 2 ^ 64 * (q.lo.toNat + 2 ^ 6 * (q.hi.toNat + 2 ^ 6 * (q.sLen.toNat +
    2 ^ 8 * (bytesToNat q.s.toList + 256 ^ 60 * (q.dtYear.toNat + 2 ^ 12 * (q.dtMonth.toNat + 2 ^ 4 * (q.dtDay.toNat +
    2 ^ 5 * (q.dtHour.toNat + 2 ^ 5 * q.dtMinute.toNat)))))))))

/-- The bundle that the number `n` is, inverse to `Request.toBits`. -/
def Request.ofBits (n : Nat) : Request :=
  let afterOp := n / 2 ^ 4
  let afterA := afterOp / 2 ^ 64
  let afterLo := afterA / 2 ^ 6
  let afterHi := afterLo / 2 ^ 6
  let afterLen := afterHi / 2 ^ 8
  let afterS := afterLen / 256 ^ 60
  let afterYear := afterS / 2 ^ 12
  let afterMonth := afterYear / 2 ^ 4
  let afterDay := afterMonth / 2 ^ 5
  let afterHour := afterDay / 2 ^ 5
  { op := BitVec.ofNat 4 n, a := BitVec.ofNat 64 afterOp, lo := BitVec.ofNat 6 afterA, hi := BitVec.ofNat 6 afterLo,
    sLen := BitVec.ofNat 8 afterHi, s := stringPort (natToBytes 60 afterLen), dtYear := BitVec.ofNat 12 afterS,
    dtMonth := BitVec.ofNat 4 afterYear, dtDay := BitVec.ofNat 5 afterMonth, dtHour := BitVec.ofNat 5 afterDay,
    dtMinute := BitVec.ofNat 6 afterHour }

/-- Bytes of one bundle. -/
def requestBytes : Nat := 75

/-- The 75 bytes of a bundle, least significant first. -/
def Request.toBytes (q : Request) : List Byte := natToBytes requestBytes q.toBits

/-- The bundle that 75 bytes are. -/
def Request.ofBytes (bytes : List Byte) : Request := Request.ofBits (bytesToNat bytes)

/-- Why bytes hold no request. -/
inductive DecodeError where
  /-- Fewer bytes than one bundle has: the request is not presented whole (20_memory.md R46). -/
  | truncatedRequest (got : Nat)
  deriving DecidableEq, Repr

/-- Decode the request at the front of a byte stream and return what follows it. -/
def decodeBytes (bytes : List Byte) : Except DecodeError (Instr × List Byte) :=
  if bytes.length < requestBytes then .error (.truncatedRequest bytes.length)
  else .ok (decode (Request.ofBytes (bytes.take requestBytes)), bytes.drop requestBytes)

/-- The bytes of an operation's request. -/
def encodeBytes (i : Instr) : List Byte := (encode i).toBytes

/-- The request whose lowest `nbits` bits are those of `w` and whose other bits are 0. A bundle is presented on ports and
has no byte order (20_memory.md R44), so the word is read as the bundle's number. -/
def tableRequest (nbits w : Nat) : Request := Request.ofBits (w % 2 ^ nbits)

/-- The operation the decoder reads from a word numbered as spec/opcode_table.json numbers it; none for a word longer than
a bundle. -/
def decodeTableWord (nbits w : Nat) : Option Instr :=
  if nbits ≤ 8 * requestBytes then some (decode (tableRequest nbits w)) else none

end Sys2Proof
end

