-- ==== Sys2Proof/Machine/Operands.lean ====
section
/-! DEFINITION. Which request fields each operation reads (10_state.md R22). The operands themselves are assembled by
`Sys2Proof.decode` as unsigned integers (30_encoding.md R64). -/

namespace Sys2Proof.Machine

/-- A set of operand fields of the request. -/
structure Reads where
  /-- `a`. -/
  a : Bool := false
  /-- `lo`. -/
  lo : Bool := false
  /-- `hi`. -/
  hi : Bool := false
  /-- `s_len` and `s[0..59]`. -/
  string : Bool := false
  /-- The five `dt_*` fields. -/
  datetime : Bool := false
  deriving DecidableEq, Repr

/-- The table of 10_state.md R22, by operation code. A reserved code reads `op` alone. -/
def readsOf (op : BitVec 4) : Reads :=
  match op.toNat with
  | 0x1 => { a := true, lo := true, hi := true }
  | 0x2 => { a := true }
  | 0x3 => { a := true }
  | 0x4 => { a := true, lo := true, hi := true }
  | 0x5 => { a := true }
  | 0x6 => { string := true }
  | 0x7 => { a := true, lo := true }
  | 0x8 => { a := true, lo := true, hi := true }
  | 0x9 => { a := true }
  | 0xA => { datetime := true }
  | 0xB => { datetime := true }
  | _ => {}

/-- Two requests that hold the same `op` and the same values in every field that operation reads. -/
def agreeOnReads (p q : Request) : Prop :=
  p.op = q.op ∧ ((readsOf p.op).a = true → p.a = q.a) ∧ ((readsOf p.op).lo = true → p.lo = q.lo) ∧
    ((readsOf p.op).hi = true → p.hi = q.hi) ∧
    ((readsOf p.op).string = true → p.sLen = q.sLen ∧ p.s = q.s) ∧
    ((readsOf p.op).datetime = true →
      p.dtYear = q.dtYear ∧ p.dtMonth = q.dtMonth ∧ p.dtDay = q.dtDay ∧ p.dtHour = q.dtHour ∧ p.dtMinute = q.dtMinute)

end Sys2Proof.Machine
end

