-- ==== Sys2Proof/Machine/Step.lean ====
section
/-! DEFINITION. One step: the request on the port is decoded and answered whole (20_memory.md R46). -/

namespace Sys2Proof.Machine

/-- The block answers the request on its port. With no request presented it does nothing: it gives no response
(10_state.md R31, 70_reset_and_hazards.md R256; DESIGN CHOICE, log 2). -/
def step (s : State) : Host.Outcome State Fault Refusal :=
  match s.takeRequest with
  | none => .next s
  | some (req, s') => exec (decode req) s'

/-- The request that the word `w` of `nbits` bits is, put on the request port in front of what the host presented (log 3,
log 4). -/
def State.withFetchWord (s : State) (nbits w : Nat) : State :=
  s.issue (tableRequest nbits w)

end Sys2Proof.Machine
end

