-- ==== Sys2Proof/Machine/HostSession.lean ====
section
/-! DEFINITION. A host's use of the block beyond single requests: the pseudo-operation DECODE_STR (30_encoding.md R65), which
is two requests of the host, the second made from the first one's result (95_test_vectors.md P1; log 14). -/

namespace Sys2Proof.Machine

/-- `FRAME_FROM_STRING "<string>"`: `s_len` is the string's length and `s[i]` its bytes (30_encoding.md R65). -/
def stringOperation (str : List Byte) : Instr := .frameFromString str.length (stringPort str).toList

/-- The host issues one operation and the block answers it. -/
def issueOperation (i : Instr) (s : State) : Host.Outcome State Fault Refusal := step (s.issue (encode i))

/-- DECODE of the `r` of the response just delivered, the last, if that response reports no error; otherwise no second request is issued and the first
response stands (30_encoding.md R65). -/
def decodeLastResult (s : State) : Host.Outcome State Fault Refusal :=
  match s.responses.getLast? with
  | none => .next s
  | some rsp => if rsp.errKind = 0 then issueOperation (.decode rsp.r.toNat) s else .next s

/-- `DECODE_STR "<string>"`: FRAME_FROM_STRING, then DECODE of its result (30_encoding.md R65). A string longer than 255
bytes has no `s_len` (10_state.md R21), so no request presents it and nothing is issued. -/
def decodeStr (str : List Byte) (s : State) : Host.Outcome State Fault Refusal :=
  if str.length < 256 then
    match issueOperation (stringOperation str) s with
    | .next s' => decodeLastResult s'
    | .fault f => .fault f
    | .refused f => .refused f
  else .next s

end Sys2Proof.Machine
end

