-- ==== Sys2Proof/Machine/Assembler.lean ====
section
/-! DEFINITION. The assembler syntax of 30_encoding.md R65: one line of text stands for one operation, or for the
pseudo-operation DECODE_STR. What R65 leaves open of the text is log 15. -/

namespace Sys2Proof.Machine

/-- What a line of a host's program stands for. -/
inductive HostLine where
  /-- One operation. -/
  | operation (i : Instr)
  /-- The pseudo-operation `DECODE_STR "<string>"`. -/
  | decodeString (str : List Byte)
  deriving DecidableEq, Repr

/-- The pieces of a text between separators. -/
def splitAtChar (sep : Char) : List Char → List (List Char)
  | [] => [[]]
  | c :: rest =>
    if c = sep then [] :: splitAtChar sep rest
    else
      match splitAtChar sep rest with
      | [] => [[c]]
      | piece :: pieces => (c :: piece) :: pieces

/-- A text without the blanks at its two ends. -/
def trimBlanks (text : List Char) : List Char :=
  ((text.dropWhile (· == ' ')).reverse.dropWhile (· == ' ')).reverse

/-- The value of a digit in base 16; letters in either case. -/
def digitValue (c : Char) : Option Nat :=
  if '0' ≤ c ∧ c ≤ '9' then some (c.toNat - '0'.toNat)
  else if 'a' ≤ c ∧ c ≤ 'f' then some (c.toNat - 'a'.toNat + 10)
  else if 'A' ≤ c ∧ c ≤ 'F' then some (c.toNat - 'A'.toNat + 10)
  else none

/-- The number that digits write, most significant first, after the digits of `acc`. -/
def digitsValue (base : Nat) : Nat → List Char → Option Nat
  | acc, [] => some acc
  | acc, c :: rest =>
    match digitValue c with
    | some d => if d < base then digitsValue base (acc * base + d) rest else none
    | none => none

/-- "Numbers are decimal, or hexadecimal with the prefix `0x`" (30_encoding.md R65). -/
def parseNumber : List Char → Option Nat
  | [] => none
  | ['0', 'x'] => none
  | '0' :: 'x' :: digits => digitsValue 16 0 digits
  | digits => digitsValue 10 0 digits

/-- The bytes of a quoted string; characters outside ASCII and inner quotes are refused. -/
def parseQuoted : List Char → Option (List Byte)
  | '"' :: rest =>
    match rest.reverse with
    | '"' :: inside =>
      if inside.all fun c => c != '"' && decide (c.toNat < 128) then
        some (inside.reverse.map fun c => BitVec.ofNat 8 c.toNat)
      else none
    | _ => none
  | _ => none

/-- `Y-M-DThh:mm` as the five numbers it writes. -/
def parseDatetime (text : List Char) : Option (Nat × Nat × Nat × Nat × Nat) :=
  match (splitAtChar 'T' text).map (fun part => splitAtChar '-' part) with
  | [[y, m, d], [time]] =>
    match splitAtChar ':' time with
    | [hh, mm] =>
      match parseNumber y, parseNumber m, parseNumber d, parseNumber hh, parseNumber mm with
      | some y, some m, some d, some hh, some mm => some (y, m, d, hh, mm)
      | _, _, _, _, _ => none
    | _ => none
  | _ => none

/-- An operation whose one operand is a number. -/
def assembleWord (build : Nat → Instr) (operands : List (List Char)) : Option Instr :=
  match operands.map parseNumber with
  | [some a] => some (build a)
  | _ => none

/-- An operation whose operands are `a, lo`. -/
def assembleIndex (build : Nat → Nat → Instr) (operands : List (List Char)) : Option Instr :=
  match operands.map parseNumber with
  | [some a, some lo] => some (build a lo)
  | _ => none

/-- An operation whose operands are `a, lo, hi`. -/
def assembleRange (build : Nat → Nat → Nat → Instr) (operands : List (List Char)) : Option Instr :=
  match operands.map parseNumber with
  | [some a, some lo, some hi] => some (build a lo hi)
  | _ => none

/-- An operation whose operand is a datetime. -/
def assembleDatetime (build : Nat → Nat → Nat → Nat → Nat → Instr) (text : List Char) : Option Instr :=
  match parseDatetime text with
  | some (y, m, d, hh, mm) => some (build y m d hh mm)
  | none => none

/-- `ENCODE Y-M-DThh:mmZ`: the datetime before the `Z`. -/
def assembleUtc (text : List Char) : Option Instr :=
  match text.reverse with
  | 'Z' :: before => assembleDatetime .encode before.reverse
  | _ => none

/-- The operation that a mnemonic and its operand text stand for (30_encoding.md R65). -/
def assembleOperation (mnemonic : List Char) (text : List Char) : Option Instr :=
  let operands := (splitAtChar ',' text).map trimBlanks
  if mnemonic = "EXTRACT".toList then assembleRange .extract operands
  else if mnemonic = "BCD_DEC".toList then assembleWord .bcdDec operands
  else if mnemonic = "BCD_ENC".toList then assembleWord .bcdEnc operands
  else if mnemonic = "PARITY".toList then assembleRange .parity operands
  else if mnemonic = "FRAME_FROM_WORD".toList then assembleWord .frameFromWord operands
  else if mnemonic = "FRAME_FROM_STRING".toList then (parseQuoted text).map stringOperation
  else if mnemonic = "BIT".toList then assembleIndex .bit operands
  else if mnemonic = "RANGE".toList then assembleRange .range operands
  else if mnemonic = "DECODE".toList then assembleWord .decode operands
  else if mnemonic = "ENCODE".toList then assembleUtc text
  else if mnemonic = "ENCODE_LOCAL".toList then assembleDatetime .encodeLocal text
  else none

/-- The meaning of one line, none for a line that is not of R65's form or whose operands fit no request field. -/
def assemble (line : List Char) : Option HostLine :=
  let mnemonic := (trimBlanks line).takeWhile (· != ' ')
  let text := trimBlanks ((trimBlanks line).dropWhile (· != ' '))
  if mnemonic = "DECODE_STR".toList then (parseQuoted text).map .decodeString
  else
    match assembleOperation mnemonic text with
    | some i => if i.wf then some (.operation i) else none
    | none => none

/-- A host runs one line of its program. -/
def runLine (line : HostLine) (s : State) : Host.Outcome State Fault Refusal :=
  match line with
  | .operation i => issueOperation i s
  | .decodeString str => decodeStr str s

end Sys2Proof.Machine
end

