-- ==== Sys2Proof/Safety.lean ====
section
/-! DEFINITION. What claims about the block are stated in: the answer to a request, which responses are legal, and the
decoder's checks said in words of their own (counts of 1 bits, quotients and remainders), apart from the machine's text. -/

namespace Sys2Proof.Machine

open Sys2Proof.Config

/-- The response each operation gives; it depends on the operation and its operands alone (10_state.md R20). -/
def responseOf : Instr → Response
  | .reserved0 => reservedResponse
  | .extract a lo hi => extractResponse a lo hi
  | .bcdDec a => bcdDecResponse a
  | .bcdEnc a => bcdEncResponse a
  | .parity a lo hi => parityResponse a lo hi
  | .frameFromWord a => frameFromWordResponse a
  | .frameFromString sLen str => frameFromStringResponse sLen str
  | .bit a lo => bitResponse a lo
  | .range a lo hi => rangeResponse a lo hi
  | .decode a => decodeResponse hardware a
  | .encode year month day hour minute => encodeResponse hardware (requestCivil year month day hour minute)
  | .encodeLocal year month day hour minute => encodeLocalResponse hardware (requestCivil year month day hour minute)
  | .reservedC => reservedResponse
  | .reservedD => reservedResponse
  | .reservedE => reservedResponse
  | .reservedF => reservedResponse

/-- The answer to a request (10_state.md R20). -/
def answer (req : Request) : Response := responseOf (decode req)

/-- The operation code of each operation (30_encoding.md R62). -/
def opcodeOf : Instr → BitVec 4
  | .reserved0 => 0x0
  | .extract _ _ _ => 0x1
  | .bcdDec _ => 0x2
  | .bcdEnc _ => 0x3
  | .parity _ _ _ => 0x4
  | .frameFromWord _ => 0x5
  | .frameFromString _ _ => 0x6
  | .bit _ _ => 0x7
  | .range _ _ _ => 0x8
  | .decode _ => 0x9
  | .encode _ _ _ _ _ => 0xA
  | .encodeLocal _ _ _ _ _ => 0xB
  | .reservedC => 0xC
  | .reservedD => 0xD
  | .reservedE => 0xE
  | .reservedF => 0xF

/-- The value of `req.a` for the operations that read it (10_state.md R22). -/
def wordOperand : Instr → Option Nat
  | .extract a _ _ => some a
  | .bcdDec a => some a
  | .bcdEnc a => some a
  | .parity a _ _ => some a
  | .frameFromWord a => some a
  | .bit a _ => some a
  | .range a _ _ => some a
  | .decode a => some a
  | .reserved0 => none
  | .frameFromString _ _ => none
  | .encode _ _ _ _ _ => none
  | .encodeLocal _ _ _ _ _ => none
  | .reservedC => none
  | .reservedD => none
  | .reservedE => none
  | .reservedF => none

/-- The state after a request was answered with `rsp`: one response more, all earlier ones and all waiting requests as
they were (20_memory.md R46, 60_exceptions.md R220). -/
def answered (s : State) (rsp : Response) : State :=
  { requests := s.requests, responses := s.responses ++ [rsp] }

/-- A success of an operation that writes `r`: every other field 0 (10_state.md R24). -/
def scalarResponse (v : Nat) : Response := { Response.zero with r := BitVec.ofNat 64 v }

/-- A success of DECODE: the `q` fields, every other field 0 (10_state.md R24). -/
def datetimeResponse (c : Civil) (cest : Bool) : Response :=
  { Response.zero with
    qYear := BitVec.ofNat 12 c.year.toNat, qMonth := BitVec.ofNat 4 c.month.toNat, qDay := BitVec.ofNat 5 c.day.toNat,
    qHour := BitVec.ofNat 5 c.hour.toNat, qMinute := BitVec.ofNat 6 c.minute.toNat, qCest := BitVec.ofBool cest }

/-- An error response by its three codes and its `err_word`: every result field 0 (30_encoding.md R81). -/
def errorResponse (kind tag sub : Nat) (errWord : Word) : Response :=
  { Response.zero with
    errKind := BitVec.ofNat 3 kind, errTag := BitVec.ofNat 4 tag, errSub := BitVec.ofNat 3 sub, errWord := errWord }

/-- Every result field is 0 (30_encoding.md R81). -/
def Response.resultsZero (rsp : Response) : Prop :=
  rsp.r = 0 ∧ rsp.qYear = 0 ∧ rsp.qMonth = 0 ∧ rsp.qDay = 0 ∧ rsp.qHour = 0 ∧ rsp.qMinute = 0 ∧ rsp.qCest = 0

/-- The kind, tag and sub of every error the block can report (60_exceptions.md R222). -/
def legalStatuses : List (Nat × Nat × Nat) :=
  [(1, 1, 0), (3, 2, 0), (1, 3, 0), (2, 4, 0), (2, 5, 0), (2, 7, 0), (1, 8, 0), (1, 9, 0), (3, 10, 0), (3, 11, 0),
   (3, 12, 0), (1, 13, 0), (1, 14, 0), (4, 15, 1), (4, 15, 2), (4, 15, 3), (4, 15, 4), (4, 15, 5), (4, 15, 6)]

/-- The `q` fields hold a civil datetime of the years 2000..2165 (10_state.md R23, 43_decoder.md R184). -/
def Response.datetimeLegal (rsp : Response) : Prop :=
  2000 ≤ rsp.qYear.toNat ∧ rsp.qYear.toNat ≤ 2165 ∧
    validCivil { year := rsp.qYear.toNat, month := rsp.qMonth.toNat, day := rsp.qDay.toNat, hour := rsp.qHour.toNat,
                 minute := rsp.qMinute.toNat } = true

/-- What every response is: a scalar, a datetime, or exactly one error of 60_exceptions.md R222 with no partial result. -/
def Response.legal (rsp : Response) : Prop :=
  rsp = scalarResponse rsp.r.toNat ∨
  (rsp.datetimeLegal ∧ rsp.r = 0 ∧ rsp.errKind = 0 ∧ rsp.errTag = 0 ∧ rsp.errSub = 0 ∧ rsp.errWord = 0) ∨
  (rsp.resultsZero ∧ (rsp.errKind.toNat, rsp.errTag.toNat, rsp.errSub.toNat) ∈ legalStatuses)

/-- Every response the host holds is one the block can give. -/
def State.Inv (s : State) : Prop := ∀ rsp ∈ s.responses, rsp.legal

/-! ### The frame, said apart from the machine -/

/-- The number of 1 bits of `x` at positions `lo..hi`. -/
def onesIn (x lo hi : Nat) : Nat := ((Finset.Icc lo hi).filter fun i => x.testBit i = true).card

/-- The field of `width` bits of `x` from bit `lo` up. -/
def fieldOf (x lo width : Nat) : Nat := x / 2 ^ lo % 2 ^ width

/-- The number that two BCD digits write (40_bitfield.md R102). -/
def digitsOf (v : Nat) : Nat := v / 16 * 10 + v % 16

/-- The local datetime a frame's fields write, in the fixed century (30_encoding.md R70, R71; 43_decoder.md R177). -/
def frameCivil (x : Nat) : Civil :=
  { year := (digitsOf (fieldOf x 50 8) + 2000 : Nat), month := (digitsOf (fieldOf x 45 5) : Nat),
    day := (digitsOf (fieldOf x 36 6) : Nat), hour := (digitsOf (fieldOf x 29 6) : Nat),
    minute := (digitsOf (fieldOf x 21 7) : Nat) }

/-- The offset `o` is one of the zone's two, and the zone has it at the instant it makes of the local minute count `L`
(42_calendar_zone.md R154). -/
def Admits (P : Params) (L o : Int) : Prop := (o = 60 ∨ o = 120) ∧ offsetAt P (L - o) = some o

/-- The offset the CET/CEST flags claim: bit 17 claims +120 (43_decoder.md R182). -/
def flagOffset (x : Nat) : Int := if x.testBit 17 then 120 else 60

/-- `o` is the offset a frame's datetime has: the zone admits it, and where it admits both, the flags decide
(43_decoder.md R180). -/
def FrameOffset (P : Params) (x : Nat) (o : Int) : Prop :=
  Admits P (minutesOf (frameCivil x)) o ∧
    (Admits P (minutesOf (frameCivil x)) 60 ∧ Admits P (minutesOf (frameCivil x)) 120 → o = flagOffset x)

/-- The decoder's checks by their numbers (43_decoder.md R171 to R183). A parity bit equals the parity of its range exactly
when the group of both holds an even number of 1 bits (30_encoding.md R72). Check 6 cannot fail (R177). -/
def CheckHolds (P : Params) (x : Nat) : Nat → Prop
  | 0 => x < 2 ^ 60
  | 1 => x.testBit 0 = false
  | 2 => x.testBit 17 ≠ x.testBit 18
  | 3 => x.testBit 20 = true
  | 4 => Even (onesIn x 21 28)
  | 5 => Even (onesIn x 29 35)
  | 7 => Even (onesIn x 36 58)
  | 8 => x.testBit 59 = false
  | 9 => validCivil (frameCivil x) = true ∧ ∃ o, FrameOffset P x o
  | 10 => weekdayOf (frameCivil x).year (frameCivil x).month (frameCivil x).day = (fieldOf x 42 3 : Nat)
  | 11 => FrameOffset P x (flagOffset x)
  | 12 => ∀ o v, FrameOffset P x o → announce P (minutesOf (frameCivil x) - o) = some v → x.testBit 16 = v
  | _ => True

/-- Kind and tag of the error of each check (60_exceptions.md R222). -/
def checkError : Nat → Nat × Nat
  | 0 => (1, 13)
  | 1 => (1, 1)
  | 2 => (3, 2)
  | 3 => (1, 3)
  | 4 => (2, 4)
  | 5 => (2, 5)
  | 7 => (2, 7)
  | 8 => (1, 8)
  | 9 => (1, 9)
  | 10 => (3, 10)
  | 11 => (3, 11)
  | 12 => (3, 12)
  | _ => (0, 0)

/-- A word that holds the frame of the local datetime `c` (30_encoding.md R70 to R74, 44_encoder.md R201): the BCD digits
of each field, the flags, even parity groups, and 0 in every bit the encoder leaves. -/
structure HoldsFrame (x : Nat) (c : Civil) (summer announced : Bool) : Prop where
  minute : (fieldOf x 21 7 : Int) = c.minute / 10 * 16 + c.minute % 10
  hour : (fieldOf x 29 6 : Int) = c.hour / 10 * 16 + c.hour % 10
  day : (fieldOf x 36 6 : Int) = c.day / 10 * 16 + c.day % 10
  weekday : (fieldOf x 42 3 : Int) = weekdayOf c.year c.month c.day
  month : (fieldOf x 45 5 : Int) = c.month / 10 * 16 + c.month % 10
  year : (fieldOf x 50 8 : Int) = c.year % 100 / 10 * 16 + c.year % 10
  announcement : x.testBit 16 = announced
  cest : x.testBit 17 = summer
  cet : x.testBit 18 = !summer
  startOfTime : x.testBit 20 = true
  minutesEven : Even (onesIn x 21 28)
  hoursEven : Even (onesIn x 29 35)
  dateEven : Even (onesIn x 36 58)
  unusedZero : ∀ i, i ≤ 15 ∨ i = 19 ∨ 59 ≤ i → x.testBit i = false

/-- The ENCODE of a UTC civil datetime whose fields are not negative. -/
def encodeOf (c : Civil) : Instr :=
  .encode c.year.toNat c.month.toNat c.day.toNat c.hour.toNat c.minute.toNat

/-- An instant at which summer time begins or ends (42_calendar_zone.md R153). -/
def IsTransition (P : Params) (n : Int) : Prop := ∃ year, n = P.zone.summerStart year ∨ n = P.zone.summerEnd year

end Sys2Proof.Machine
end

