-- ==== Sys2Proof/Certificates/Slice0/Obligations.lean ====
section
/-! DEFINITION. The statements for the provers, from the numbered rules of spec/. -/

open Sys2Proof Sys2Proof.Machine

/-! ### Requests -/

/-- Decoding the 75 bytes of a well-formed operation gives the operation and what follows, for every operand at every value
its field admits. The order of the fields in the bytes is the model's choice (log 4). -/
def Obligations.RequestBytesDecodeToTheirOperation : Prop :=
  ∀ (i : Instr) (rest : List Byte), i.wf = true → decodeBytes (encodeBytes i ++ rest) = .ok (i, rest)

/-- Each value of `op` selects its row, and the operands fit their fields (30_encoding.md R61, R62). -/
def Obligations.OpcodeAloneSelectsTheOperation : Prop :=
  ∀ req : Request, opcodeOf (decode req) = req.op ∧ (decode req).wf = true

/-- A field an operation does not read has no effect on its response (10_state.md R22). -/
def Obligations.UnreadFieldsHaveNoEffect : Prop :=
  ∀ (p q : Request) (s : State), agreeOnReads p q → step (s.issue p) = step (s.issue q)

/-- A few words written out from 30_encoding.md R62 and the field order of log 4 decode to their rows. -/
def Obligations.TableWordsDecodeToTheirRows : Prop :=
  decodeTableWord 8 0x0 = some .reserved0 ∧
  decodeTableWord 80 (0x1 + 2 ^ 4 * 0x494f17c09120000 + 2 ^ 68 * 21 + 2 ^ 74 * 27) =
    some (.extract 0x494f17c09120000 21 27) ∧
  decodeTableWord 16 0x592 = some (.bcdDec 0x59) ∧
  decodeTableWord 16 0x633 = some (.bcdEnc 99) ∧
  decodeTableWord 80 (0x8 + 2 ^ 4 * 0xff + 2 ^ 68 * 1 + 2 ^ 74 * 5) = some (.range 0xff 1 5) ∧
  decodeTableWord 72 (0x9 + 2 ^ 4 * 0x82312832744a50) = some (.decode 0x82312832744a50) ∧
  decodeTableWord 8 0x6 = some (.frameFromString 0 (List.replicate 60 0)) ∧
  decodeTableWord 8 0xF = some .reservedF ∧
  decode { bareRequest 0xA with dtYear := 2025, dtMonth := 7, dtDay := 17, dtHour := 18, dtMinute := 48 } =
    .encode 2025 7 17 18 48

/-! ### The step and its responses -/

/-- The request on the port is decoded and executed with the queue moved on, and a table word put on the port runs as the
operation it decodes to (10_state.md R26; log 1, log 3). -/
def Obligations.StepRunsTheDecodedRequest : Prop :=
  (∀ (s : State) (req : Request) (rest : List Request) (i : Instr), s.requests = req :: rest → decode req = i →
    step s = exec i { requests := rest, responses := s.responses }) ∧
  (∀ (s : State) (nbits w : Nat) (i : Instr), decodeTableWord nbits w = some i → step (s.withFetchWord nbits w) = exec i s)

/-- Before the first request there is no response: none at reset, and a host read never gives a response that no request
answered, so it has no value while there is none (10_state.md R31). -/
def Obligations.NoResponseBeforeTheFirstRequest : Prop :=
  State.reset.responses = [] ∧ State.reset.readResponse = none ∧
  (∀ s : State, s.responses = [] → s.readResponse = none) ∧
  ∀ (s : State) (rsp : Response), s.readResponse = some rsp → rsp ∈ s.responses

/-- A step with no request presented changes nothing and gives no response. That it is a step at all is the model's choice
(log 2). -/
def Obligations.StepWithoutRequestGivesNoResponse : Prop :=
  ∀ s : State, s.requests = [] → step s = .next s

/-- Every operation completes, in every state, with exactly one response, and leaves the waiting requests and all earlier
responses as they were. -/
def Obligations.EveryOperationAnswersOnce : Prop :=
  ∀ (i : Instr) (s : State), exec i s = .next (answered s (responseOf i))

/-- The response to a request is the same whatever state it meets (10_state.md R20). -/
def Obligations.ResponseDependsOnTheRequestAlone : Prop :=
  ∀ req : Request, ∃ rsp : Response, ∀ s : State, step (s.issue req) = .next (answered s rsp)

/-- In a queue of requests the response to each does not depend on those before or behind it: it is what the same request
alone gets right after reset (20_memory.md R47). The queue, and that its first request is answered first, are the model's
(log 1). -/
def Obligations.QueuedRequestsAreIndependent : Prop :=
  ∀ (s : State) (before behind : List Request) (req : Request), s.requests = before ++ req :: behind →
    ∃ (t : State) (rsp : Response), Sys2Proof.core.run (before.length + 1) s = .next t ∧ t.requests = behind ∧
      t.responses.getLast? = some rsp ∧ step (State.reset.issue req) = .next (answered State.reset rsp)

/-- A host's sequence of requests ends after its last response, and its end state is the list of responses (70_reset_and_hazards.md
R255; the queue is the model's, log 1). -/
def Obligations.QueueIsAnsweredRequestByRequest : Prop :=
  ∀ s : State, Sys2Proof.core.run s.requests.length s =
    .next { requests := [], responses := s.responses ++ s.requests.map answer }

/-- Every step keeps every response legal: a scalar, a datetime of 2000..2165, or one error of 60_exceptions.md R222 with
no partial result. -/
def Obligations.StepKeepsResponsesLegal : Prop :=
  ∀ s t : State, s.Inv → step s = .next t → t.Inv

/-- The reset state holds only legal responses. -/
def Obligations.ResetResponsesAreLegal : Prop := State.reset.Inv

/-- An error response has its three codes, 0 in every result field, and in `err_word` a copy of `a` if the operation reads
`a`, else 0 (30_encoding.md R81). -/
def Obligations.ErrorsCarryNoPartialResult : Prop :=
  (∀ (kind : ErrKind) (tag : ErrTag) (sub : ErrSub) (w : Word),
    raise kind tag sub w = errorResponse kind.code.toNat tag.code.toNat sub.code.toNat w) ∧
  ∀ (i : Instr) (s : State) (rsp : Response), exec i s = .next (answered s rsp) → rsp.errKind ≠ 0 →
    rsp.resultsZero ∧
      rsp.errWord = (match wordOperand i with
        | some a => BitVec.ofNat 64 a
        | none => 0)

/-- On success every status field is 0, DECODE writes the `q` fields alone and every other operation `r` alone; on an error
every result field is 0 (10_state.md R24). -/
def Obligations.EachOperationWritesItsOwnFields : Prop :=
  ∀ (i : Instr) (s : State) (rsp : Response), exec i s = .next (answered s rsp) →
    (rsp.errKind = 0 → rsp.errTag = 0 ∧ rsp.errSub = 0 ∧ rsp.errWord = 0 ∧
      (opcodeOf i = 0x9 → rsp.r = 0) ∧
      (opcodeOf i ≠ 0x9 → rsp.qYear = 0 ∧ rsp.qMonth = 0 ∧ rsp.qDay = 0 ∧ rsp.qHour = 0 ∧ rsp.qMinute = 0 ∧ rsp.qCest = 0)) ∧
    (rsp.errKind ≠ 0 → rsp.resultsZero)

/-- The codes the spec reserves are never produced: kinds 5 to 7, tag 6, sub 7; the tag is 0 exactly without an error, and
the sub is 0 except with an ARGUMENT error, whose tag is 15. -/
def Obligations.ReservedStatusCodesAreNeverProduced : Prop :=
  ∀ (i : Instr) (s : State) (rsp : Response), exec i s = .next (answered s rsp) →
    rsp.errKind.toNat ≤ 4 ∧ rsp.errTag ≠ 6 ∧ rsp.errSub ≠ 7 ∧ (rsp.errTag = 0 ↔ rsp.errKind = 0) ∧
      (rsp.errSub ≠ 0 ↔ rsp.errKind = 4) ∧ (rsp.errTag = 15 ↔ rsp.errKind = 4)

/-- Each of the five reserved codes is answered with ARGUMENT 15/6 and `err_word` 0, whatever the other fields hold
(30_encoding.md R63). -/
def Obligations.ReservedCodesAnswerAnArgumentError : Prop :=
  (∀ (s : State) (i : Instr), i ∈ [Instr.reserved0, .reservedC, .reservedD, .reservedE, .reservedF] →
    exec i s = .next (answered s (errorResponse 4 15 6 0))) ∧
  (∀ (s : State) (req : Request), req.op ∈ [0x0#4, 0xC#4, 0xD#4, 0xE#4, 0xF#4] →
    step (s.issue req) = .next (answered s (errorResponse 4 15 6 0)))

/-! ### Bit-field utilities -/

/-- EXTRACT answers the field `a[hi:lo]`, or ARGUMENT 15/1 when `lo > hi` (40_bitfield.md R100, R101). -/
def Obligations.ExtractReturnsTheField : Prop :=
  ∀ (s : State) (a lo hi : Nat), a < 2 ^ 64 → lo < 64 → hi < 64 →
    (lo ≤ hi →
      exec (.extract a lo hi) s = .next (answered s (scalarResponse ((a >>> lo) &&& ((1 <<< (hi - lo + 1)) - 1)))) ∧
      (a >>> lo) &&& ((1 <<< (hi - lo + 1)) - 1) = fieldOf a lo (hi - lo + 1) ∧
      fieldOf a lo (hi - lo + 1) < 2 ^ (hi - lo + 1)) ∧
    (hi < lo → exec (.extract a lo hi) s = .next (answered s (errorResponse 4 15 1 (BitVec.ofNat 64 a))))

/-- BCD_DEC answers tens times ten plus units, with no digit check, or ARGUMENT 15/2 above 0xFF (40_bitfield.md R102, R103). -/
def Obligations.BcdDecReturnsTensAndUnits : Prop :=
  ∀ (s : State) (a : Nat), a < 2 ^ 64 →
    (a ≤ 0xFF → exec (.bcdDec a) s = .next (answered s (scalarResponse (a / 16 * 10 + a % 16)))) ∧
    (0xFF < a → exec (.bcdDec a) s = .next (answered s (errorResponse 4 15 2 (BitVec.ofNat 64 a))))

/-- BCD_ENC answers the two digits in two nibbles, or ARGUMENT 15/2 above 99 (40_bitfield.md R104). -/
def Obligations.BcdEncReturnsPackedDigits : Prop :=
  ∀ (s : State) (a : Nat), a < 2 ^ 64 →
    (a ≤ 99 → exec (.bcdEnc a) s = .next (answered s (scalarResponse (a / 10 * 16 + a % 10)))) ∧
    (99 < a → exec (.bcdEnc a) s = .next (answered s (errorResponse 4 15 2 (BitVec.ofNat 64 a))))

/-- BCD_DEC undoes BCD_ENC on 0..99; BCD_ENC undoes BCD_DEC on a byte of two decimal digits and on no other byte
(40_bitfield.md R105). A byte decodes to at most 165 (R102). -/
def Obligations.BcdRoundTrips : Prop :=
  (∀ (s : State) (n : Nat), n ≤ 99 → ∃ b ≤ 0xFF, exec (.bcdEnc n) s = .next (answered s (scalarResponse b)) ∧
    exec (.bcdDec b) s = .next (answered s (scalarResponse n))) ∧
  (∀ (s : State) (b : Nat), b ≤ 0xFF → ∃ n ≤ 165, exec (.bcdDec b) s = .next (answered s (scalarResponse n)) ∧
    (b / 16 ≤ 9 ∧ b % 16 ≤ 9 ↔ exec (.bcdEnc n) s = .next (answered s (scalarResponse b))))

/-- PARITY answers the count of 1 bits in the range modulo 2, or ARGUMENT 15/1 when `lo > hi` (40_bitfield.md R106). -/
def Obligations.ParityCountsOnesModuloTwo : Prop :=
  ∀ (s : State) (a lo hi : Nat), a < 2 ^ 64 → lo < 64 → hi < 64 →
    (lo ≤ hi → exec (.parity a lo hi) s = .next (answered s (scalarResponse (onesIn a lo hi % 2)))) ∧
    (hi < lo → exec (.parity a lo hi) s = .next (answered s (errorResponse 4 15 1 (BitVec.ofNat 64 a))))

/-- Parity is 1 exactly for an odd count; flipping one bit of the range flips it, flipping two leaves it, and flipping a bit
outside the range leaves it (40_bitfield.md R107). -/
def Obligations.FlippedBitsFlipParity : Prop :=
  ∀ (x lo hi : Nat), lo ≤ hi → hi < 64 →
    (parityOfRange x lo hi = 1 ↔ Odd (onesIn x lo hi)) ∧
    (∀ i, lo ≤ i → i ≤ hi → parityOfRange (x ^^^ 2 ^ i) lo hi = 1 - parityOfRange x lo hi) ∧
    (∀ i j, lo ≤ i → i < j → j ≤ hi → parityOfRange (x ^^^ 2 ^ i ^^^ 2 ^ j) lo hi = parityOfRange x lo hi) ∧
    (∀ i, i < lo ∨ hi < i → parityOfRange (x ^^^ 2 ^ i) lo hi = parityOfRange x lo hi)

/-! ### Frames -/

/-- FRAME_FROM_WORD answers the word itself when bits 63..60 are 0, else STRUCTURAL 13 (41_frame.md R120, R121). -/
def Obligations.FrameFromWordChecksTheTopBits : Prop :=
  ∀ (s : State) (a : Nat), a < 2 ^ 64 →
    ((∀ i, 60 ≤ i → i ≤ 63 → a.testBit i = false) → exec (.frameFromWord a) s = .next (answered s (scalarResponse a))) ∧
    ((∃ i, 60 ≤ i ∧ i ≤ 63 ∧ a.testBit i = true) →
      exec (.frameFromWord a) s = .next (answered s (errorResponse 1 13 0 (BitVec.ofNat 64 a))))

/-- FRAME_FROM_STRING of 60 characters `'0'` or `'1'` answers the word whose bit `i` is character `i`; any other length or
character gives STRUCTURAL 14 with `err_word` 0 (41_frame.md R122). -/
def Obligations.FrameFromStringPlacesEachCharacter : Prop :=
  ∀ (s : State) (sLen : Nat) (str : List Byte), sLen < 256 → str.length = 60 →
    (sLen = 60 ∧ (∀ c ∈ str, c = 0x30 ∨ c = 0x31) →
      ∃ x, x < 2 ^ 60 ∧ (∀ i, x.testBit i = true ↔ str[i]? = some 0x31) ∧
        exec (.frameFromString sLen str) s = .next (answered s (scalarResponse x))) ∧
    (sLen ≠ 60 ∨ (∃ c ∈ str, c ≠ 0x30 ∧ c ≠ 0x31) →
      exec (.frameFromString sLen str) s = .next (answered s (errorResponse 1 14 0 0)))

/-- The two constructions agree, and every frame has exactly one string (41_frame.md R123). -/
def Obligations.StringsAndFramesCorrespond : Prop :=
  (∀ (s : State) (str : List Byte) (x : Nat), str.length = 60 → x < 2 ^ 64 →
    exec (.frameFromString 60 str) s = .next (answered s (scalarResponse x)) →
    exec (.frameFromWord x) s = .next (answered s (scalarResponse x)) ∧
      ∀ i < 60, (str[i]? = some 0x31 ↔ x.testBit i = true)) ∧
  (∀ (s : State) (x : Nat), x < 2 ^ 60 →
    ∃! str : List Byte, str.length = 60 ∧
      exec (.frameFromString 60 str) s = .next (answered s (scalarResponse x)))

/-- BIT answers bit `lo` of a frame; the frame test comes before the index test (41_frame.md R124). -/
def Obligations.BitReadsOneFrameBit : Prop :=
  ∀ (s : State) (a lo : Nat), a < 2 ^ 64 → lo < 64 →
    (a < 2 ^ 60 → lo ≤ 59 → exec (.bit a lo) s = .next (answered s (scalarResponse (a / 2 ^ lo % 2)))) ∧
    (a < 2 ^ 60 → 59 < lo → exec (.bit a lo) s = .next (answered s (errorResponse 4 15 1 (BitVec.ofNat 64 a)))) ∧
    (2 ^ 60 ≤ a → exec (.bit a lo) s = .next (answered s (errorResponse 1 13 0 (BitVec.ofNat 64 a))))

/-- RANGE answers the field `a[hi:lo]` of a frame; the frame test comes before the index test (41_frame.md R125). -/
def Obligations.RangeReadsAFrameField : Prop :=
  ∀ (s : State) (a lo hi : Nat), a < 2 ^ 64 → lo < 64 → hi < 64 →
    (a < 2 ^ 60 → lo ≤ hi → hi ≤ 59 →
      exec (.range a lo hi) s = .next (answered s (scalarResponse (fieldOf a lo (hi - lo + 1))))) ∧
    (a < 2 ^ 60 → (hi < lo ∨ 59 < hi) →
      exec (.range a lo hi) s = .next (answered s (errorResponse 4 15 1 (BitVec.ofNat 64 a)))) ∧
    (2 ^ 60 ≤ a → exec (.range a lo hi) s = .next (answered s (errorResponse 1 13 0 (BitVec.ofNat 64 a))))

/-- On a frame and its indices RANGE answers as EXTRACT, with equal indices as BIT, and over 0..59 the whole frame. -/
def Obligations.FrameAccessorsAgree : Prop :=
  ∀ (s : State) (a lo hi : Nat), a < 2 ^ 60 → lo ≤ hi → hi ≤ 59 →
    exec (.range a lo hi) s = exec (.extract a lo hi) s ∧ exec (.range a lo lo) s = exec (.bit a lo) s ∧
      exec (.range a 0 59) s = .next (answered s (scalarResponse a))

/-- Each decoded field is the sum of its bits' decimal weights (30_encoding.md R71). -/
def Obligations.FieldBitsHaveDecimalWeights : Prop :=
  ∀ x : Nat,
    let weigh : Nat → List Nat → Nat := fun lo ws => (ws.zipIdx.map fun p => if x.testBit (lo + p.2) then p.1 else 0).sum
    let f := frameFields x
    f.minute = weigh 21 [1, 2, 4, 8, 10, 20, 40] ∧ f.hour = weigh 29 [1, 2, 4, 8, 10, 20] ∧
      f.day = weigh 36 [1, 2, 4, 8, 10, 20] ∧ f.wday = weigh 42 [1, 2, 4] ∧ f.month = weigh 45 [1, 2, 4, 8, 10] ∧
      f.year = 2000 + weigh 50 [1, 2, 4, 8, 10, 20, 40, 80]

/-! ### Calendar and zone -/

/-- The day count counts the days of the Gregorian calendar: 0 on 1970-01-01, and one more on each following date, through
month ends, leap days and year ends. The weekday is one of 1 (Monday) to 7 (Sunday), 4 on 1970-01-01, and on each following
date the next of these, 1 after 7. -/
def Obligations.DayCountFollowsTheCalendar : Prop :=
  daysFromCivil 1970 1 1 = 0 ∧ weekdayOf 1970 1 1 = 4 ∧
  ∀ year month day : Int, 1 ≤ month → month ≤ 12 → 1 ≤ day → day ≤ daysInMonth year month →
    let isNext : Int → Int → Int → Prop := fun year' month' day' =>
      daysFromCivil year' month' day' = daysFromCivil year month day + 1 ∧
        weekdayOf year' month' day' =
          (if weekdayOf year month day = 7 then 1 else weekdayOf year month day + 1)
    (1 ≤ weekdayOf year month day ∧ weekdayOf year month day ≤ 7) ∧
    (day < daysInMonth year month → isNext year month (day + 1)) ∧
    (day = daysInMonth year month → month < 12 → isNext year (month + 1) 1) ∧
    (day = daysInMonth year month → month = 12 → isNext (year + 1) 1 1)

/-- Civil datetimes and minute counts are inverse to each other, over all integers. -/
def Obligations.CivilDatetimesAndMinutesAreInverse : Prop :=
  (∀ t : Int, validCivil (civilOf t) = true ∧ minutesOf (civilOf t) = t) ∧
  (∀ c : Civil, validCivil c = true → civilOf (minutesOf c) = c)

/-- `last_sunday(Y, M)` is the largest day of the month that is a Sunday, with the check values of the rule
(42_calendar_zone.md R151). -/
def Obligations.LastSundayIsTheLargestSunday : Prop :=
  (∀ year month : Int, 1 ≤ month → month ≤ 12 →
    lastSunday year month ≤ daysInMonth year month ∧ weekdayOf year month (lastSunday year month) = 7 ∧
      ∀ day, day ≤ daysInMonth year month → weekdayOf year month day = 7 → day ≤ lastSunday year month) ∧
  [2019, 2020, 2025, 2037, 2038].map (fun year : Int => (lastSunday year 3, lastSunday year 10)) =
    [(31, 27), (29, 25), (30, 26), (29, 25), (28, 31)]

/-- Summer time is in effect from `S(Y)` inclusive to `E(Y)` exclusive of every year, standard time at all other instants;
`S(Y)` and `E(Y)` are 01:00 UTC on the last Sundays of March and October, and with a `TZ_CUTOFF` of `c` the offset is the
same before `c` and undefined from `c` on (42_calendar_zone.md R150). -/
def Obligations.SummerTimeRunsFromMarchToOctober : Prop :=
  (∀ t : Int, (∃ year, hardware.zone.summerStart year ≤ t ∧ t < hardware.zone.summerEnd year) →
    offsetAt hardware t = some 120) ∧
  (∀ t : Int, (∀ year, t < hardware.zone.summerStart year ∨ hardware.zone.summerEnd year ≤ t) →
    offsetAt hardware t = some 60) ∧
  (∀ year : Int,
    civilOf (hardware.zone.summerStart year) =
      { year := year, month := 3, day := lastSunday year 3, hour := 1, minute := 0 } ∧
    civilOf (hardware.zone.summerEnd year) =
      { year := year, month := 10, day := lastSunday year 10, hour := 1, minute := 0 }) ∧
  (∀ c t : Int, offsetAt { zone := hardware.zone, cutoff := some c } t = if c ≤ t then none else offsetAt hardware t)

/-- `next_transition(t)` is the earliest transition strictly after `t`, or none when it lies at or after `TZ_CUTOFF`, for
every value of that parameter (42_calendar_zone.md R153). -/
def Obligations.NextTransitionIsTheEarliestAfter : Prop :=
  ∀ (cutoff : Option Int) (t : Int), ∃ n, t < n ∧ IsTransition hardware n ∧
    (∀ m, IsTransition hardware m → t < m → n ≤ m) ∧
    nextTransition { zone := hardware.zone, cutoff := cutoff } t =
      (match cutoff with
        | some c => if c ≤ n then none else some n
        | none => some n)

/-- The announcement is none when there is no next transition, else whether it is at most 60 minutes away; with the default
zone it is true for exactly the 60 instants before each transition, which in local time are 01:00..01:59 CET before `S(Y)`
and 02:00..02:59 CEST before `E(Y)` (42_calendar_zone.md R155). -/
def Obligations.AnnouncementMarksTheHourBeforeATransition : Prop :=
  (∀ (P : Config.Params) (t : Int), announce P t = (nextTransition P t).map fun n => decide (n - t ≤ 60)) ∧
  (∀ t : Int,
    ((∃ n, IsTransition hardware n ∧ n - 60 ≤ t ∧ t ≤ n - 1) → announce hardware t = some true) ∧
    ((∀ n, IsTransition hardware n → t < n - 60 ∨ n - 1 < t) → announce hardware t = some false)) ∧
  (∀ year k : Int, 0 ≤ k → k < 60 →
    civilOf (hardware.zone.summerStart year - 60 + k + 60) =
      { year := year, month := 3, day := lastSunday year 3, hour := 1, minute := k } ∧
    civilOf (hardware.zone.summerEnd year - 60 + k + 120) =
      { year := year, month := 10, day := lastSunday year 10, hour := 2, minute := k })

/-- A local time has no offset exactly in a gap hour and both exactly in a fallback hour; every other local minute has
exactly one. -/
def Obligations.GapAndFallbackHoursAreTheOnlyExceptions : Prop :=
  ∀ L : Int,
    (¬ Admits hardware L 60 ∧ ¬ Admits hardware L 120 ↔
      ∃ year, hardware.zone.summerStart year + 60 ≤ L ∧ L < hardware.zone.summerStart year + 120) ∧
    (Admits hardware L 60 ∧ Admits hardware L 120 ↔
      ∃ year, hardware.zone.summerEnd year + 60 ≤ L ∧ L < hardware.zone.summerEnd year + 120)

/-- With `TZ_CUTOFF` = `none` every instant has an offset and a next transition. With `some c`, whatever the zone, it is
undefined exactly at and after `c`, and no next transition lies there (42_calendar_zone.md R152). -/
def Obligations.NothingIsDefinedAtOrAfterTheCutoff : Prop :=
  ∀ (zone : Config.Zone) (t : Int),
    ((offsetAt { zone := zone, cutoff := none } t).isSome = true ∧
      (nextTransition { zone := zone, cutoff := none } t).isSome = true) ∧
    (∀ c : Int,
      (offsetAt { zone := zone, cutoff := some c } t = none ↔ c ≤ t) ∧
      (∀ n, nextTransition { zone := zone, cutoff := some c } t = some n → n < c) ∧
      (∀ n, nextTransition { zone := zone, cutoff := none } t = some n →
        (nextTransition { zone := zone, cutoff := some c } t = none ↔ c ≤ n)))

/-! ### Decoder -/

/-- The checks run in their order, and the first one violated is the only error reported, on this hardware and with any
`TZ_CUTOFF` (43_decoder.md R171 to R183). -/
def Obligations.DecodeReportsTheFirstViolatedCheck : Prop :=
  ∀ x k : Nat, x < 2 ^ 64 → k ≤ 12 →
    ((∀ j < k, CheckHolds hardware x j) → ¬ CheckHolds hardware x k → ∀ s : State,
      exec (.decode x) s =
        .next (answered s (errorResponse (checkError k).1 (checkError k).2 0 (BitVec.ofNat 64 x)))) ∧
    (∀ c : Int,
      let P : Config.Params := { zone := hardware.zone, cutoff := some c }
      (∀ j < k, CheckHolds P x j) → ¬ CheckHolds P x k →
        decodeResponse P x = errorResponse (checkError k).1 (checkError k).2 0 (BitVec.ofNat 64 x))

/-- A frame that passes all checks answers the local datetime its digits write, a year of 2000..2165, and the offset its
flags claim, which check 11 compared with the zone's; on this hardware and with any `TZ_CUTOFF` (43_decoder.md R184). -/
def Obligations.DecodeReturnsTheDatetime : Prop :=
  ∀ x : Nat, x < 2 ^ 64 →
    (2000 ≤ (frameCivil x).year ∧ (frameCivil x).year ≤ 2165) ∧
    ((∀ k ≤ 12, CheckHolds hardware x k) → ∀ s : State,
      exec (.decode x) s = .next (answered s (datetimeResponse (frameCivil x) (x.testBit 17)))) ∧
    (∀ c : Int,
      let P : Config.Params := { zone := hardware.zone, cutoff := some c }
      (∀ k ≤ 12, CheckHolds P x k) → decodeResponse P x = datetimeResponse (frameCivil x) (x.testBit 17))

/-- Bits 1 to 15 and 19 do not affect the response, but that an error's `err_word` copies the word itself (log 10). -/
def Obligations.DecodeIgnoresUnexaminedBits : Prop :=
  ∀ (s : State) (x y : Nat) (rsp : Response), x < 2 ^ 64 → y < 2 ^ 64 →
    (∀ i, ¬ (1 ≤ i ∧ i ≤ 15) → i ≠ 19 → x.testBit i = y.testBit i) →
    exec (.decode x) s = .next (answered s rsp) →
    exec (.decode y) s =
      .next (answered s { rsp with errWord := if rsp.errKind = 0 then 0 else BitVec.ofNat 64 y })

/-- Flipping one bit of a protected group of a frame that decodes gives that group's parity error. -/
def Obligations.FlippedProtectedBitIsDetected : Prop :=
  ∀ (s : State) (x i : Nat), x < 2 ^ 64 → (∀ k ≤ 12, CheckHolds hardware x k) →
    (21 ≤ i → i ≤ 28 →
      exec (.decode (x ^^^ 2 ^ i)) s = .next (answered s (errorResponse 2 4 0 (BitVec.ofNat 64 (x ^^^ 2 ^ i))))) ∧
    (29 ≤ i → i ≤ 35 →
      exec (.decode (x ^^^ 2 ^ i)) s = .next (answered s (errorResponse 2 5 0 (BitVec.ofNat 64 (x ^^^ 2 ^ i))))) ∧
    (36 ≤ i → i ≤ 58 →
      exec (.decode (x ^^^ 2 ^ i)) s = .next (answered s (errorResponse 2 7 0 (BitVec.ofNat 64 (x ^^^ 2 ^ i)))))

/-! ### Encoder -/

/-- ENCODE answers the frame of the instant's local datetime, for every valid UTC datetime of every year the port carries;
an invalid one gives ARGUMENT 15/3. With a `TZ_CUTOFF` of `k` so does an instant at or after `k`, and before it bit 16 is 0
when there is no next transition (44_encoder.md R200, R201). -/
def Obligations.EncodeReturnsTheFrame : Prop :=
  ∀ (s : State) (year month day hour minute : Nat), datetimeFits year month day hour minute = true →
    let c : Civil := { year := year, month := month, day := day, hour := hour, minute := minute }
    (validCivil c = true →
      ∃ (x : Nat) (o : Int), offsetAt hardware (minutesOf c) = some o ∧
        HoldsFrame x (civilOf (minutesOf c + o)) (decide (o = 120)) (decide (announce hardware (minutesOf c) = some true)) ∧
        exec (.encode year month day hour minute) s = .next (answered s (scalarResponse x))) ∧
    (validCivil c = false →
      exec (.encode year month day hour minute) s = .next (answered s (errorResponse 4 15 3 0))) ∧
    (∀ k : Int,
      let P : Config.Params := { zone := hardware.zone, cutoff := some k }
      validCivil c = true →
      (k ≤ minutesOf c → encodeResponse P c = errorResponse 4 15 3 0) ∧
      (minutesOf c < k →
        ∃ (x : Nat) (o : Int), offsetAt P (minutesOf c) = some o ∧
          HoldsFrame x (civilOf (minutesOf c + o)) (decide (o = 120)) (decide (announce P (minutesOf c) = some true)) ∧
          encodeResponse P c = scalarResponse x))

/-- ENCODE_LOCAL answers the frame of the local datetime when the zone admits one offset for it, ARGUMENT 15/4 when it
admits none, 15/5 when it admits both, 15/3 when the datetime is not valid. With a `TZ_CUTOFF` of `k` it gives 15/3 also
when the local time read as CET is at or after `k` (44_encoder.md R203). -/
def Obligations.EncodeLocalReturnsTheFrame : Prop :=
  ∀ (s : State) (year month day hour minute : Nat), datetimeFits year month day hour minute = true →
    let c : Civil := { year := year, month := month, day := day, hour := hour, minute := minute }
    let run := exec (.encodeLocal year month day hour minute) s
    (validCivil c = false → run = .next (answered s (errorResponse 4 15 3 0))) ∧
    (validCivil c = true → ¬ Admits hardware (minutesOf c) 60 → ¬ Admits hardware (minutesOf c) 120 →
      run = .next (answered s (errorResponse 4 15 4 0))) ∧
    (validCivil c = true → Admits hardware (minutesOf c) 60 → Admits hardware (minutesOf c) 120 →
      run = .next (answered s (errorResponse 4 15 5 0))) ∧
    (∀ o, validCivil c = true → Admits hardware (minutesOf c) o → ¬ Admits hardware (minutesOf c) (180 - o) →
      ∃ x : Nat, HoldsFrame x c (decide (o = 120)) (decide (announce hardware (minutesOf c - o) = some true)) ∧
        run = .next (answered s (scalarResponse x))) ∧
    (∀ k : Int,
      let P : Config.Params := { zone := hardware.zone, cutoff := some k }
      validCivil c = true →
      (k ≤ minutesOf c - 60 → encodeLocalResponse P c = errorResponse 4 15 3 0) ∧
      (minutesOf c - 60 < k →
        (¬ Admits P (minutesOf c) 60 → ¬ Admits P (minutesOf c) 120 →
          encodeLocalResponse P c = errorResponse 4 15 4 0) ∧
        (Admits P (minutesOf c) 60 → Admits P (minutesOf c) 120 → encodeLocalResponse P c = errorResponse 4 15 5 0) ∧
        (∀ o, Admits P (minutesOf c) o → ¬ Admits P (minutesOf c) (180 - o) →
          ∃ x : Nat, HoldsFrame x c (decide (o = 120)) (decide (announce P (minutesOf c - o) = some true)) ∧
            encodeLocalResponse P c = scalarResponse x)))

/-- DECODE of the frame ENCODE answers gives the local datetime of the instant and its offset, for every instant whose
local year is 2000..2099. -/
def Obligations.DecodeInvertsEncode : Prop :=
  ∀ (s : State) (year month day hour minute : Nat), datetimeFits year month day hour minute = true →
    let c : Civil := { year := year, month := month, day := day, hour := hour, minute := minute }
    ∀ o : Int, validCivil c = true → offsetAt hardware (minutesOf c) = some o →
      2000 ≤ (civilOf (minutesOf c + o)).year → (civilOf (minutesOf c + o)).year ≤ 2099 →
      ∃ x : Nat, exec (.encode year month day hour minute) s = .next (answered s (scalarResponse x)) ∧
        exec (.decode x) s = .next (answered s (datetimeResponse (civilOf (minutesOf c + o)) (decide (o = 120))))

/-- In the fallback hour of every year 2000..2099 the two instants of one wall-clock minute have frames that differ in
exactly bits 16, 17 and 18, and both decode to that minute, local 02:00 plus `k` minutes on the day of `E(Y)`, with `q_cest` 1 and 0. -/
def Obligations.FallbackHourFramesBothDecode : Prop :=
  ∀ (s : State) (year k : Int), 2000 ≤ year → year ≤ 2099 → 0 ≤ k → k < 60 →
    let c := civilOf (hardware.zone.summerEnd year + 60 + k)
    ∃ x y : Nat,
      exec (encodeOf (civilOf (hardware.zone.summerEnd year - 60 + k))) s = .next (answered s (scalarResponse x)) ∧
      exec (encodeOf (civilOf (hardware.zone.summerEnd year + k))) s = .next (answered s (scalarResponse y)) ∧
      x ^^^ y = 0x70000 ∧ x.testBit 17 = true ∧
      exec (.decode x) s = .next (answered s (datetimeResponse c true)) ∧
      exec (.decode y) s = .next (answered s (datetimeResponse c false))

/-! ### A host's program -/

/-- DECODE_STR is FRAME_FROM_STRING and then DECODE of its result; if the first reports an error, the second is not issued
and the first response stands (30_encoding.md R65; log 14). -/
def Obligations.DecodeStrIsTwoRequests : Prop :=
  (∀ (s : State) (str : List Byte), str.length = 60 → (∀ c ∈ str, c = 0x30 ∨ c = 0x31) →
    ∃ x, x < 2 ^ 60 ∧ (∀ i, x.testBit i = true ↔ str[i]? = some 0x31) ∧
      decodeStr str s = exec (.decode x) (answered s (scalarResponse x))) ∧
  (∀ (s : State) (str : List Byte), str.length < 256 → (str.length ≠ 60 ∨ ∃ c ∈ str, c ≠ 0x30 ∧ c ≠ 0x31) →
    decodeStr str s = .next (answered s (errorResponse 1 14 0 0)))

/-- Numbers of the assembler text are decimal, or hexadecimal with the prefix `0x`, for every number (30_encoding.md R65). -/
def Obligations.AssemblerNumbersAreDecimalOrHexadecimal : Prop :=
  ∀ n : Nat, parseNumber (Nat.toDigits 10 n) = some n ∧ parseNumber ('0' :: 'x' :: Nat.toDigits 16 n) = some n

/-- A line in the assembler syntax, its numbers in decimal, stands for its operation, for every operand its field admits,
and a quoted string of ASCII characters stands for its bytes (30_encoding.md R65; the characters a string may hold are
log 15). -/
def Obligations.AssemblerLinesStandForOperations : Prop :=
  let num : Nat → List Char := Nat.toDigits 10
  let bytes : List Char → List Byte := fun str => str.map fun c => BitVec.ofNat 8 c.toNat
  (∀ p ∈ [("BCD_DEC", Instr.bcdDec), ("BCD_ENC", .bcdEnc), ("FRAME_FROM_WORD", .frameFromWord), ("DECODE", .decode)],
    ∀ a, a < 2 ^ 64 → assemble (p.1.toList ++ ' ' :: num a) = some (.operation (p.2 a))) ∧
  (∀ p ∈ [("EXTRACT", Instr.extract), ("PARITY", .parity), ("RANGE", .range)],
    ∀ a lo hi, a < 2 ^ 64 → lo < 64 → hi < 64 →
      assemble (p.1.toList ++ ' ' :: num a ++ ", ".toList ++ num lo ++ ", ".toList ++ num hi) =
        some (.operation (p.2 a lo hi))) ∧
  (∀ a lo, a < 2 ^ 64 → lo < 64 →
    assemble ("BIT ".toList ++ num a ++ ", ".toList ++ num lo) = some (.operation (.bit a lo))) ∧
  (∀ year month day hour minute, datetimeFits year month day hour minute = true →
    let text := num year ++ '-' :: num month ++ '-' :: num day ++ 'T' :: num hour ++ ':' :: num minute
    assemble ("ENCODE ".toList ++ text ++ ['Z']) = some (.operation (.encode year month day hour minute)) ∧
    assemble ("ENCODE_LOCAL ".toList ++ text) = some (.operation (.encodeLocal year month day hour minute))) ∧
  (∀ str : List Char, (∀ c ∈ str, c ≠ '"' ∧ c.toNat < 128) →
    assemble ("DECODE_STR \"".toList ++ str ++ ['"']) = some (.decodeString (bytes str)) ∧
    (str.length < 256 →
      assemble ("FRAME_FROM_STRING \"".toList ++ str ++ ['"']) = some (.operation (stringOperation (bytes str)))))

/-- A host read after a response gives that response. That a read gives the last response delivered, however often it is
made and whatever waits, is the model's choice (log 16). -/
def Obligations.HostReadGivesTheLastResponse : Prop :=
  ∀ (s : State) (req later : Request), ∃ rsp : Response, step (s.issue req) = .next (answered s rsp) ∧
    (answered s rsp).readResponse = some rsp ∧ ((answered s rsp).present later).readResponse = some rsp
end

