-- ==== Sys2Proof/Laws/State.lean ====
section
/-! SUPPORT. One lemma for each field of State under each of its updates. -/

namespace Sys2Proof.Machine.State

@[simp] theorem reset_requests : reset.requests = [] := rfl
@[simp] theorem reset_responses : reset.responses = [] := rfl
@[simp] theorem deliver_requests (s : State) (rsp : Response) : (s.deliver rsp).requests = s.requests := rfl
@[simp] theorem deliver_responses (s : State) (rsp : Response) : (s.deliver rsp).responses = s.responses ++ [rsp] := rfl
@[simp] theorem issue_requests (s : State) (req : Request) : (s.issue req).requests = req :: s.requests := rfl
@[simp] theorem issue_responses (s : State) (req : Request) : (s.issue req).responses = s.responses := rfl
@[simp] theorem present_requests (s : State) (req : Request) : (s.present req).requests = s.requests ++ [req] := rfl
@[simp] theorem present_responses (s : State) (req : Request) : (s.present req).responses = s.responses := rfl

/-- A host that reads after a response was delivered gets that response. -/
@[simp] theorem readResponse_deliver (s : State) (rsp : Response) : (s.deliver rsp).readResponse = some rsp := by
  simp [readResponse]

/-- Presenting requests changes no response. -/
@[simp] theorem readResponse_issue (s : State) (req : Request) : (s.issue req).readResponse = s.readResponse := rfl
@[simp] theorem readResponse_present (s : State) (req : Request) : (s.present req).readResponse = s.readResponse := rfl

end Sys2Proof.Machine.State
end

