-- ==== Sys2Proof/Laws/Ops.lean ====
section
/-! SUPPORT. What each shared operation can do, said once. -/

namespace Sys2Proof.Machine

/-- Responding always gives a next state, with the one response more. -/
@[simp] theorem respond_eq (s : State) (rsp : Response) : s.respond rsp = .next (s.deliver rsp) := rfl

/-- The next state of a response, and nothing else, is its delivery. -/
theorem respond_next_iff (s t : State) (rsp : Response) : s.respond rsp = .next t ↔ t = s.deliver rsp := by
  simp [eq_comm]

/-- `deliver` is the state the claims speak of. -/
theorem answered_eq_deliver (s : State) (rsp : Response) : answered s rsp = s.deliver rsp := rfl

@[simp] theorem takeRequest_nil (s : State) (h : s.requests = []) : s.takeRequest = none := by
  simp [State.takeRequest, h]

@[simp] theorem takeRequest_cons (s : State) (req : Request) (rest : List Request) (h : s.requests = req :: rest) :
    s.takeRequest = some (req, { s with requests := rest }) := by
  simp [State.takeRequest, h]

/-- The request a host issues is the next one taken, and taking it restores the queue. -/
@[simp] theorem takeRequest_issue (s : State) (req : Request) : (s.issue req).takeRequest = some (req, s) := rfl

/-- An error response is that of its three codes. -/
theorem raise_eq (kind : ErrKind) (tag : ErrTag) (sub : ErrSub) (w : Word) :
    raise kind tag sub w = errorResponse kind.code.toNat tag.code.toNat sub.code.toNat w := by
  simp [raise, errorResponse]

/-- An ARGUMENT error has kind 4, tag 15 and its detail. -/
theorem raiseArgument_eq (sub : ErrSub) (w : Word) : raiseArgument sub w = errorResponse 4 15 sub.code.toNat w :=
  raise_eq _ _ _ _

/-- A scalar success is `scalarResponse`. -/
theorem returnScalar_eq (v : Nat) : returnScalar v = scalarResponse v := rfl

/-- A raised error leaves every result field 0. -/
theorem raise_resultsZero (kind : ErrKind) (tag : ErrTag) (sub : ErrSub) (w : Word) :
    (raise kind tag sub w).resultsZero := ⟨rfl, rfl, rfl, rfl, rfl, rfl, rfl⟩

/-- A raised error is an error: its kind is not NONE. -/
theorem raise_errKind_ne_zero (kind : ErrKind) (tag : ErrTag) (sub : ErrSub) (w : Word) :
    (raise kind tag sub w).errKind ≠ 0 := by
  cases kind <;> simp [raise, ErrKind.code]

@[simp] theorem raise_errWord (kind : ErrKind) (tag : ErrTag) (sub : ErrSub) (w : Word) :
    (raise kind tag sub w).errWord = w := rfl
@[simp] theorem raiseArgument_errWord (sub : ErrSub) (w : Word) : (raiseArgument sub w).errWord = w := rfl
@[simp] theorem returnScalar_r (v : Nat) : (returnScalar v).r = BitVec.ofNat 64 v := rfl
@[simp] theorem returnScalar_errKind (v : Nat) : (returnScalar v).errKind = 0 := rfl

/-- A scalar success is legal. -/
theorem returnScalar_legal (v : Nat) : (returnScalar v).legal :=
  .inl (by simp only [returnScalar, scalarResponse]; congr 1; apply BitVec.eq_of_toNat_eq; simp)

/-- An error of a status in the table of 60_exceptions.md R222 is legal. -/
theorem raise_legal {kind : ErrKind} {tag : ErrTag} {sub : ErrSub} {w : Word}
    (h : (kind.code.toNat, tag.code.toNat, sub.code.toNat) ∈ legalStatuses) : (raise kind tag sub w).legal :=
  .inr (.inr ⟨raise_resultsZero _ _ _ _, h⟩)

end Sys2Proof.Machine
end

