-- ==== Sys2Proof/Laws/BitField.lean ====
section
/-! SUPPORT. The bit-field functions as quotients, remainders and single bits. -/

namespace Sys2Proof.Machine

/-- A field is a quotient modulo its width. -/
theorem extractBits_eq (x lo hi : Nat) : extractBits x lo hi = x / 2 ^ lo % 2 ^ (hi - lo + 1) := by
  simp [extractBits, Nat.shiftRight_eq_div_pow, Nat.and_two_pow_sub_one_eq_mod]

/-- A field is below two to its width (40_bitfield.md R101). -/
theorem extractBits_lt (x lo hi : Nat) : extractBits x lo hi < 2 ^ (hi - lo + 1) := by
  rw [extractBits_eq]; exact Nat.mod_lt _ (by positivity)

/-- Bit `i` of a field is bit `lo + i` of the word. -/
@[simp] theorem testBit_extractBits (x lo hi i : Nat) :
    (extractBits x lo hi).testBit i = (decide (i < hi - lo + 1) && x.testBit (lo + i)) := by
  rw [extractBits_eq, Nat.testBit_mod_two_pow, Nat.testBit_div_two_pow, Nat.add_comm i lo]

theorem bitAt_le_one (x i : Nat) : bitAt x i ≤ 1 := by
  unfold bitAt; cases x.testBit i <;> decide

@[simp] theorem bitAt_eq_one (x i : Nat) : bitAt x i = 1 ↔ x.testBit i = true := by
  unfold bitAt; cases x.testBit i <;> decide

@[simp] theorem bitAt_eq_zero (x i : Nat) : bitAt x i = 0 ↔ x.testBit i = false := by
  unfold bitAt; cases x.testBit i <;> decide

theorem bitAt_eq_iff (x y i j : Nat) : bitAt x i = bitAt y j ↔ x.testBit i = y.testBit j := by
  unfold bitAt; cases x.testBit i <;> cases y.testBit j <;> decide

/-- Words with the same `n` lowest bits have the same number of 1 bits among them. -/
theorem onesBelow_congr {n x y : Nat} (h : ∀ i < n, x.testBit i = y.testBit i) : onesBelow n x = onesBelow n y := by
  induction n with
  | zero => rfl
  | succ n ih =>
    simp only [onesBelow, bitAt, h n (by omega)]
    rw [ih fun i hi => h i (by omega)]

/-- `onesBelow` counts the positions below `n` that hold a 1. -/
theorem onesBelow_eq_card (n x : Nat) :
    onesBelow n x = ((Finset.range n).filter fun i => x.testBit i = true).card := by
  induction n with
  | zero => rfl
  | succ n ih =>
    rw [Finset.range_add_one, Finset.filter_insert, onesBelow, ih, bitAt]
    cases h : x.testBit n <;> simp [h]

/-- The number of 1 bits of a field of a word is the count of its 1 positions. -/
theorem popcount_extractBits (x lo hi : Nat) (h : lo ≤ hi) (h' : hi < 64) :
    popcount (extractBits x lo hi) = onesIn x lo hi := by
  rw [popcount, onesBelow_eq_card, onesIn]
  refine Finset.card_bij (fun i _ => lo + i) ?_ ?_ ?_
  · simp only [Finset.mem_filter, Finset.mem_range, Finset.mem_Icc, testBit_extractBits, Bool.and_eq_true,
      decide_eq_true_eq, Config.wordBits]
    rintro i ⟨h1, h2, h3⟩
    exact ⟨by omega, h3⟩
  · intro i _ j _ h; omega
  · simp only [Finset.mem_filter, Finset.mem_range, Finset.mem_Icc, testBit_extractBits, Bool.and_eq_true,
      decide_eq_true_eq]
    rintro i ⟨⟨h1, h2⟩, h3⟩
    refine ⟨i - lo, ⟨⟨?_, ?_, ?_⟩, ?_⟩⟩
    · simp only [Config.wordBits]; omega
    · omega
    · rwa [show lo + (i - lo) = i by omega]
    · omega

theorem parityOf_le_one (v : Nat) : parityOf v ≤ 1 := by unfold parityOf; omega

/-- The parity of a range is its count of 1 bits modulo 2 (40_bitfield.md R106). -/
theorem parityOfRange_eq (x lo hi : Nat) (h : lo ≤ hi) (h' : hi < 64) :
    parityOfRange x lo hi = onesIn x lo hi % 2 := by
  rw [parityOfRange, parityOf, popcount_extractBits x lo hi h h']

/-- One more position: the count of `lo..hi+1`. -/
theorem onesIn_succ (x lo hi : Nat) (h : lo ≤ hi + 1) : onesIn x lo (hi + 1) = onesIn x lo hi + bitAt x (hi + 1) := by
  rw [onesIn, ← Finset.insert_Icc_right_eq_Icc_add_one h, Finset.filter_insert, bitAt, onesIn]
  cases hb : x.testBit (hi + 1) <;> simp

/-- Equal bits in a range give equal counts. -/
theorem onesIn_congr {x y lo hi : Nat} (h : ∀ i, lo ≤ i → i ≤ hi → x.testBit i = y.testBit i) :
    onesIn x lo hi = onesIn y lo hi := by
  unfold onesIn
  congr 1
  apply Finset.filter_congr
  intro i hi
  rw [Finset.mem_Icc] at hi
  rw [h i hi.1 hi.2]

/-- A parity bit equals the parity of its range exactly when the group holds an even number of 1 bits (30_encoding.md R72). -/
theorem parity_matches_iff (x lo hi : Nat) (h : lo ≤ hi) (h' : hi < 64) :
    parityOfRange x lo hi = bitAt x (hi + 1) ↔ Even (onesIn x lo (hi + 1)) := by
  rw [parityOfRange_eq x lo hi h h', onesIn_succ x lo hi (by omega), Nat.even_iff]
  have := bitAt_le_one x (hi + 1)
  omega

/-- BCD decode of a byte: tens and units by division (40_bitfield.md R102). -/
theorem bcdDecode_eq (b : Nat) (h : b < 256) : bcdDecode b = b / 16 * 10 + b % 16 := by
  simp only [bcdDecode, extractBits_eq]
  omega

/-- BCD encode by division (40_bitfield.md R104). -/
theorem bcdEncode_eq (n : Nat) : bcdEncode n = n / 10 * 16 + n % 10 := by
  rw [bcdEncode, ← Nat.shiftLeft_add_eq_or_of_lt (by omega : n % 10 < 2 ^ 4), Nat.shiftLeft_eq]

/-- The packed BCD of two digits fits eight bits. -/
theorem bcdEncode_lt (n : Nat) (h : n ≤ 99) : bcdEncode n < 154 := by
  rw [bcdEncode_eq]; omega

end Sys2Proof.Machine
end

