-- ==== Sys2Proof/Laws/Calendar.lean ====
section
/-! SUPPORT. The day count and its inverse (42_calendar_zone.md R141): what they give of a day count and of a date. -/

namespace Sys2Proof.Machine

/-- The year of an era that a day of the era falls in, by the count of days before each year. -/
theorem yearOfEra_spec {doe yoe : Int} (h0 : 0 ≤ doe) (h1 : doe ≤ 146096)
    (hy : yoe = (doe - doe / 1460 + doe / 36524 - doe / 146096) / 365) :
    0 ≤ yoe ∧ yoe ≤ 399 ∧ 365 * yoe + yoe / 4 - yoe / 100 ≤ doe ∧ doe ≤ 365 * yoe + yoe / 4 - yoe / 100 + 365 ∧
      (doe = 365 * yoe + yoe / 4 - yoe / 100 + 365 →
        (yoe + 1) % 4 = 0 ∧ ((yoe + 1) % 100 ≠ 0 ∨ (yoe + 1) % 400 = 0)) := by
  have hd : doe / 36524 = 0 ∨ doe / 36524 = 1 ∨ doe / 36524 = 2 ∨ doe / 36524 = 3 ∨ doe / 36524 = 4 := by omega
  have hk : yoe = 4 * (doe / 1460) - 1 ∨ yoe = 4 * (doe / 1460) ∨ yoe = 4 * (doe / 1460) + 1 ∨
      yoe = 4 * (doe / 1460) + 2 ∨ yoe = 4 * (doe / 1460) + 3 := by omega
  rcases hd with hd | hd | hd | hd | hd <;> rcases hk with hk | hk | hk | hk | hk <;>
    refine ⟨?_, ?_, ?_, ?_, ?_⟩ <;> omega

/-- The day of a year that starts in March falls in one year of the era only. -/
theorem yearOfEra_unique {y z d e : Int} (hy : 0 ≤ y ∧ y ≤ 399) (hz : 0 ≤ z ∧ z ≤ 399) (hd : 0 ≤ d ∧ d ≤ 365)
    (he : 0 ≤ e ∧ e ≤ 365)
    (ld : d = 365 → (y + 1) % 4 = 0 ∧ ((y + 1) % 100 ≠ 0 ∨ (y + 1) % 400 = 0))
    (le : e = 365 → (z + 1) % 4 = 0 ∧ ((z + 1) % 100 ≠ 0 ∨ (z + 1) % 400 = 0))
    (h : 365 * y + y / 4 - y / 100 + d = 365 * z + z / 4 - z / 100 + e) : y = z ∧ d = e := by
  have hyz : y = z ∨ y = z + 1 ∨ z = y + 1 := by omega
  rcases hyz with rfl | rfl | rfl <;> omega

theorem validCivil_iff (c : Civil) :
    validCivil c = true ↔ (1 ≤ c.month ∧ c.month ≤ 12) ∧ (1 ≤ c.day ∧ c.day ≤ daysInMonth c.year c.month) ∧
      (0 ≤ c.hour ∧ c.hour ≤ 23) ∧ (0 ≤ c.minute ∧ c.minute ≤ 59) := by
  simp only [validCivil, decide_eq_true_eq, and_assoc]

theorem isLeap_iff (year : Int) : isLeap year = true ↔ year % 4 = 0 ∧ (year % 100 ≠ 0 ∨ year % 400 = 0) := by
  simp only [isLeap, Bool.or_eq_true, Bool.and_eq_true, beq_iff_eq, bne_iff_ne]
  omega

theorem daysInMonth_february (year : Int) : daysInMonth year 2 = if isLeap year then 29 else 28 := rfl

/-- A month other than February has 30 or 31 days. -/
theorem daysInMonth_other {year month : Int} (h : month ≠ 2) :
    daysInMonth year month = if month = 4 ∨ month = 6 ∨ month = 9 ∨ month = 11 then 30 else 31 := by
  simp [daysInMonth, h]

theorem daysInMonth_bounds (year month : Int) : 28 ≤ daysInMonth year month ∧ daysInMonth year month ≤ 31 := by
  unfold daysInMonth; split <;> split <;> omega

/-- The day count of a date of the year of an era that starts in March. -/
theorem daysFromCivil_eq (year month day y : Int) (hy : y = year - boolInt (month ≤ 2)) :
    daysFromCivil year month day =
      y / 400 * 146097 + (y % 400 * 365 + y % 400 / 4 - y % 400 / 100 + ((153 * ((month + 9) % 12) + 2) / 5 + day - 1))
        - 719468 := by
  subst hy
  have h : ∀ z : Int, z - z / 400 * 400 = z % 400 := fun z => by omega
  simp only [daysFromCivil, h]

/-- The date of a day count is a date of the calendar, and its day count is that count. -/
theorem civilFromDays_spec (z : Int) :
    let c := civilFromDays z
    (1 ≤ c.2.1 ∧ c.2.1 ≤ 12) ∧ (1 ≤ c.2.2 ∧ c.2.2 ≤ daysInMonth c.1 c.2.1) ∧ daysFromCivil c.1 c.2.1 c.2.2 = z := by
  generalize hw : z + 719468 = w
  generalize he : w / 146097 = era
  generalize hdoe : w - era * 146097 = doe
  generalize hyoe : (doe - doe / 1460 + doe / 36524 - doe / 146096) / 365 = yoe
  generalize hdoy : doe - (365 * yoe + yoe / 4 - yoe / 100) = doy
  generalize hmp : (5 * doy + 2) / 153 = mp
  have hc : civilFromDays z = (yoe + era * 400 + boolInt ((if mp < 10 then mp + 3 else mp - 9) ≤ 2),
      if mp < 10 then mp + 3 else mp - 9, doy - (153 * mp + 2) / 5 + 1) := by
    simp only [civilFromDays, hw, he, hdoe, hyoe, hdoy, hmp]
  obtain ⟨y0, y1, y2, y3, y4⟩ := yearOfEra_spec (by omega) (by omega) hyoe.symm
  have m0 : 0 ≤ mp := by omega
  have m1 : mp ≤ 11 := by omega
  have hy : ∀ b : Bool, ∀ m : Int, yoe + era * 400 = yoe + era * 400 + boolInt b - boolInt b := fun _ _ => by ring
  have hera : (yoe + era * 400) / 400 = era := by omega
  have hmod : (yoe + era * 400) % 400 = yoe := by omega
  simp only [hc]
  rw [daysFromCivil_eq _ _ _ (yoe + era * 400) (by ring), hera, hmod]
  by_cases h10 : mp < 10
  · have e12 : (mp + 3 + 9) % 12 = mp := by omega
    simp only [h10, if_true, e12]
    have hb : boolInt (decide (mp + 3 ≤ 2)) = 0 := by
      rw [boolInt, if_neg]; simp; omega
    refine ⟨by omega, ?_, by omega⟩
    rw [daysInMonth_other (by omega)]
    split <;> omega
  · have e12 : (mp - 9 + 9) % 12 = mp := by omega
    simp only [h10, if_false, e12]
    have hb : boolInt (decide (mp - 9 ≤ 2)) = 1 := by
      rw [boolInt, if_pos]; simp; omega
    refine ⟨by omega, ?_, by omega⟩
    rw [hb]
    rcases (by omega : mp = 10 ∨ mp = 11) with rfl | rfl
    · rw [daysInMonth_other (by omega)]
      norm_num
      omega
    · rw [show (11 : Int) - 9 = 2 by norm_num, daysInMonth_february]
      split
      · omega
      · rename_i hl
        rw [isLeap_iff] at hl
        omega

/-- The day of a year that starts in March, of a valid date: within the year, day 365 only when February has 29 days, and
it gives month and day back. -/
theorem dayOfYear_spec {year month day : Int} (hm : 1 ≤ month ∧ month ≤ 12) (hd : 1 ≤ day ∧ day ≤ daysInMonth year month) :
    let y := year - boolInt (month ≤ 2)
    let doy := (153 * ((month + 9) % 12) + 2) / 5 + day - 1
    0 ≤ doy ∧ doy ≤ 365 ∧ (doy = 365 → (y % 400 + 1) % 4 = 0 ∧ ((y % 400 + 1) % 100 ≠ 0 ∨ (y % 400 + 1) % 400 = 0)) ∧
      (5 * doy + 2) / 153 = (month + 9) % 12 := by
  obtain ⟨m1, m2⟩ := hm
  obtain ⟨d1, d2⟩ := hd
  have hb : (boolInt (decide (month ≤ 2)) = 1 ∧ month ≤ 2) ∨ (boolInt (decide (month ≤ 2)) = 0 ∧ 3 ≤ month) := by
    by_cases h : month ≤ 2
    · exact .inl ⟨by simp [boolInt, h], h⟩
    · exact .inr ⟨by simp [boolInt, h], by omega⟩
  by_cases h2 : month = 2
  · subst h2
    rw [daysInMonth_february] at d2
    split at d2
    · rename_i hl
      rw [isLeap_iff] at hl
      refine ⟨by omega, by omega, ?_, by omega⟩
      intro _
      omega
    · refine ⟨by omega, by omega, by omega, by omega⟩
  · rw [daysInMonth_other h2] at d2
    have hc : month = 1 ∨ month = 3 ∨ month = 4 ∨ month = 5 ∨ month = 6 ∨ month = 7 ∨ month = 8 ∨ month = 9 ∨ month = 10 ∨
        month = 11 ∨ month = 12 := by omega
    rcases hc with rfl | rfl | rfl | rfl | rfl | rfl | rfl | rfl | rfl | rfl | rfl <;> norm_num at d2 <;>
      refine ⟨by omega, by omega, by omega, by omega⟩

/-- Two dates of the calendar with one day count are one date. -/
theorem daysFromCivil_injective {y m d y' m' d' : Int} (hm : 1 ≤ m ∧ m ≤ 12) (hd : 1 ≤ d ∧ d ≤ daysInMonth y m)
    (hm' : 1 ≤ m' ∧ m' ≤ 12) (hd' : 1 ≤ d' ∧ d' ≤ daysInMonth y' m')
    (h : daysFromCivil y m d = daysFromCivil y' m' d') : y = y' ∧ m = m' ∧ d = d' := by
  obtain ⟨a1, a2, a3, a4⟩ := dayOfYear_spec hm hd
  obtain ⟨b1, b2, b3, b4⟩ := dayOfYear_spec hm' hd'
  rw [daysFromCivil_eq _ _ _ _ rfl, daysFromCivil_eq _ _ _ _ rfl] at h
  have hz : ∀ z : Int, 0 ≤ z % 400 ∧ z % 400 ≤ 399 := fun z => by omega
  have hp : boolInt (decide (m ≤ 2)) = boolInt (decide (m' ≤ 2)) → m = m' → y - boolInt (decide (m ≤ 2)) =
      y' - boolInt (decide (m' ≤ 2)) → y = y' := fun e _ h => by rw [e] at h; omega
  generalize hu : y - boolInt (decide (m ≤ 2)) = u at *
  generalize hv : y' - boolInt (decide (m' ≤ 2)) = v at *
  generalize hdu : (153 * ((m + 9) % 12) + 2) / 5 + d - 1 = du at *
  generalize hdv : (153 * ((m' + 9) % 12) + 2) / 5 + d' - 1 = dv at *
  have hu' := hz u
  have hv' := hz v
  have hera : u / 400 = v / 400 := by omega
  obtain ⟨e1, e2⟩ := yearOfEra_unique hu' hv' ⟨a1, a2⟩ ⟨b1, b2⟩ a3 b3 (by omega)
  have hmm : m = m' := by
    rw [e2, b4] at a4
    omega
  subst hmm
  exact ⟨hp rfl rfl (by omega), rfl, by omega⟩

/-- The year of a date by its day count: 1 January of its year is not after it, 1 January of the next year is. -/
theorem daysFromCivil_january (year : Int) :
    daysFromCivil (year + 1) 1 1 = daysFromCivil year 1 1 + if isLeap year then 366 else 365 := by
  simp only [daysFromCivil_eq _ _ _ _ rfl, boolInt]
  norm_num
  split
  · rename_i hl; rw [isLeap_iff] at hl; omega
  · rename_i hl; rw [isLeap_iff] at hl; omega

/-- Days within a month count up by one. -/
theorem daysFromCivil_day (year month day k : Int) :
    daysFromCivil year month (day + k) = daysFromCivil year month day + k := by
  simp only [daysFromCivil_eq _ _ _ _ rfl]
  ring

/-- Weekdays are 1 to 7 (42_calendar_zone.md R144). -/
theorem weekdayOf_bounds (year month day : Int) : 1 ≤ weekdayOf year month day ∧ weekdayOf year month day ≤ 7 := by
  unfold weekdayOf; omega

/-- The weekday moves with the day count. -/
theorem weekdayOf_day (year month day k : Int) :
    weekdayOf year month (day + k) = (weekdayOf year month day - 1 + k) % 7 + 1 := by
  unfold weekdayOf; rw [daysFromCivil_day]; omega

end Sys2Proof.Machine
end

