-- ==== Sys2Proof/Laws/Decode.lean ====
section
/-! SUPPORT. Laws of the request's ports and bytes. -/

namespace Sys2Proof

@[simp] theorem natToBytes_length (count n : Nat) : (natToBytes count n).length = count := by
  induction count generalizing n with
  | zero => rfl
  | succ count ih => simp [natToBytes, ih]

/-- Reading back the bytes of a number gives the number, cut to their count. -/
theorem bytesToNat_natToBytes (count n : Nat) : bytesToNat (natToBytes count n) = n % 256 ^ count := by
  induction count generalizing n with
  | zero => simp [natToBytes, bytesToNat, Nat.mod_one]
  | succ count ih =>
    have h : n % (256 * 256 ^ count) = n % 256 + 256 * (n / 256 % 256 ^ count) := Nat.mod_mul
    rw [natToBytes, bytesToNat, ih, BitVec.toNat_ofNat, show 256 ^ (count + 1) = 256 * 256 ^ count from Nat.pow_succ', h]

/-- The bytes of the number that bytes write are those bytes. -/
theorem natToBytes_bytesToNat (bytes : List Byte) : natToBytes bytes.length (bytesToNat bytes) = bytes := by
  induction bytes with
  | nil => rfl
  | cons b rest ih =>
    have hb : b.toNat < 256 := b.isLt
    rw [List.length_cons, natToBytes, bytesToNat]
    have h1 : BitVec.ofNat 8 (b.toNat + 256 * bytesToNat rest) = b :=
      BitVec.eq_of_toNat_eq (by simp; omega)
    have h2 : (b.toNat + 256 * bytesToNat rest) / 256 = bytesToNat rest := by omega
    rw [h1, h2, ih]

theorem bytesToNat_lt (bytes : List Byte) : bytesToNat bytes < 256 ^ bytes.length := by
  rw [← natToBytes_bytesToNat bytes, bytesToNat_natToBytes, natToBytes_length]
  exact Nat.mod_lt _ (by positivity)

/-- The port holds a string of 60 bytes as it is. -/
@[simp] theorem stringPort_toList {str : List Byte} (h : str.length = 60) : (stringPort str).toList = str := by
  simp [stringPort, Vector.toList, h]

/-- The port of a port's bytes is the port. -/
@[simp] theorem stringPort_of_toList (v : Vector Byte 60) : stringPort v.toList = v := by
  apply Vector.toList_inj.mp
  rw [stringPort_toList]
  simp

/-- A field of `m` values under one of `n` values: the number they make is one of `m * n`. -/
theorem pack_lt {a b m n : Nat} (ha : a < m) (hb : b < n) : a + m * b < m * n :=
  calc a + m * b < m + m * b := by omega
    _ = m * (b + 1) := by ring
    _ ≤ m * n := Nat.mul_le_mul_left _ hb

/-- What stands above a field. -/
theorem pack_div {a m : Nat} (b : Nat) (ha : a < m) : (a + m * b) / m = b := by
  rw [Nat.add_mul_div_left _ _ (by omega), Nat.div_eq_of_lt ha, Nat.zero_add]

/-- The field itself. -/
theorem pack_ofNat {k : Nat} (v : BitVec k) (b : Nat) : BitVec.ofNat k (v.toNat + 2 ^ k * b) = v := by
  apply BitVec.eq_of_toNat_eq
  rw [BitVec.toNat_ofNat, Nat.add_mul_mod_self_left, Nat.mod_eq_of_lt v.isLt]

/-- The string port's number is one of `256 ^ 60`. -/
theorem port_lt (v : Vector Byte 60) : bytesToNat v.toList < 256 ^ 60 := by
  have h := bytesToNat_lt v.toList
  rwa [Vector.length_toList] at h

/-- The port of a port's number, whatever stands above it. -/
theorem pack_port (v : Vector Byte 60) (b : Nat) :
    stringPort (natToBytes 60 (bytesToNat v.toList + 256 ^ 60 * b)) = v := by
  have h : natToBytes 60 (bytesToNat v.toList + 256 ^ 60 * b) = v.toList := by
    have e : bytesToNat (natToBytes 60 (bytesToNat v.toList + 256 ^ 60 * b)) = bytesToNat v.toList := by
      rw [bytesToNat_natToBytes, Nat.add_mul_mod_self_left, Nat.mod_eq_of_lt (port_lt v)]
    have l := natToBytes_bytesToNat (natToBytes 60 (bytesToNat v.toList + 256 ^ 60 * b))
    rw [natToBytes_length, e] at l
    rw [← l]
    simpa using natToBytes_bytesToNat v.toList
  rw [h, stringPort_of_toList]

/-- A bundle's number has 600 bits. -/
theorem toBits_lt (q : Request) : q.toBits < 256 ^ requestBytes := by
  have h := pack_lt q.op.isLt (pack_lt q.a.isLt (pack_lt q.lo.isLt (pack_lt q.hi.isLt (pack_lt q.sLen.isLt
    (pack_lt (port_lt q.s) (pack_lt q.dtYear.isLt (pack_lt q.dtMonth.isLt (pack_lt q.dtDay.isLt
      (pack_lt q.dtHour.isLt q.dtMinute.isLt)))))))))
  exact lt_of_lt_of_eq h (by norm_num [requestBytes])

/-- Two bundles with equal fields are equal. -/
theorem request_ext {p q : Request} (h1 : p.op = q.op) (h2 : p.a = q.a) (h3 : p.lo = q.lo) (h4 : p.hi = q.hi)
    (h5 : p.sLen = q.sLen) (h6 : p.s = q.s) (h7 : p.dtYear = q.dtYear) (h8 : p.dtMonth = q.dtMonth)
    (h9 : p.dtDay = q.dtDay) (h10 : p.dtHour = q.dtHour) (h11 : p.dtMinute = q.dtMinute) : p = q := by
  cases p; cases q; simp_all

/-- The bundle of a bundle's number is that bundle: each field is read back where it was put. -/
@[simp] theorem ofBits_toBits (q : Request) : Request.ofBits q.toBits = q := by
  have d1 := pack_div (q.a.toNat + 2 ^ 64 * (q.lo.toNat + 2 ^ 6 * (q.hi.toNat + 2 ^ 6 * (q.sLen.toNat +
    2 ^ 8 * (bytesToNat q.s.toList + 256 ^ 60 * (q.dtYear.toNat + 2 ^ 12 * (q.dtMonth.toNat + 2 ^ 4 * (q.dtDay.toNat +
    2 ^ 5 * (q.dtHour.toNat + 2 ^ 5 * q.dtMinute.toNat))))))))) q.op.isLt
  unfold Request.ofBits Request.toBits
  dsimp only
  rw [d1, pack_div _ q.a.isLt, pack_div _ q.lo.isLt, pack_div _ q.hi.isLt, pack_div _ q.sLen.isLt, pack_div _ (port_lt q.s),
    pack_div _ q.dtYear.isLt, pack_div _ q.dtMonth.isLt, pack_div _ q.dtDay.isLt, pack_div _ q.dtHour.isLt]
  apply request_ext <;> dsimp only
  case h6 => exact pack_port _ _
  case h11 => exact BitVec.eq_of_toNat_eq (by simp)
  all_goals exact pack_ofNat _ _

/-- The bundle of a bundle's bytes is that bundle. -/
@[simp] theorem ofBytes_toBytes (q : Request) : Request.ofBytes q.toBytes = q := by
  rw [Request.ofBytes, Request.toBytes, bytesToNat_natToBytes, Nat.mod_eq_of_lt (toBits_lt q), ofBits_toBits]

@[simp] theorem toBytes_length (q : Request) : q.toBytes.length = requestBytes := natToBytes_length _ _

/-- A table word's operation is the one the decoder of bytes reads from the word laid out in a bundle's bytes. -/
theorem decodeBytes_tableWord (nbits w : Nat) (h : nbits ≤ 8 * requestBytes) (rest : List Byte) :
    decodeBytes (natToBytes requestBytes (w % 2 ^ nbits) ++ rest) = .ok (decode (tableRequest nbits w), rest) := by
  have hl : (natToBytes requestBytes (w % 2 ^ nbits)).length = requestBytes := natToBytes_length _ _
  have hw : w % 2 ^ nbits < 256 ^ requestBytes := by
    calc w % 2 ^ nbits < 2 ^ nbits := Nat.mod_lt _ (by positivity)
      _ ≤ 2 ^ (8 * requestBytes) := Nat.pow_le_pow_right (by decide) h
      _ = 256 ^ requestBytes := Nat.pow_mul 2 8 requestBytes
  rw [decodeBytes, if_neg (by simp [hl]), List.take_left' hl, List.drop_left' hl, Request.ofBytes, bytesToNat_natToBytes,
    Nat.mod_eq_of_lt hw, tableRequest]

end Sys2Proof
end

