-- ==== Sys2Proof/Laws/Frame.lean ====
section
/-! SUPPORT. Frame words and frame strings (41_frame.md R120, R122; 20_memory.md R42). -/

namespace Sys2Proof.Machine

/-- A frame is a word below two to the 60 (41_frame.md R120). -/
@[simp] theorem isFrame_iff (x : Nat) : isFrame x = true ↔ x < 2 ^ 60 := by
  simp only [isFrame, Config.frameBits, beq_iff_eq, Nat.shiftRight_eq_div_pow, Nat.div_eq_zero_iff]
  omega

@[simp] theorem isFrame_eq_false_iff (x : Nat) : isFrame x = false ↔ 2 ^ 60 ≤ x := by
  rw [← Bool.not_eq_true, isFrame_iff]; omega

/-- Which bytes stand for a bit, and for which (41_frame.md R122). -/
theorem charBit_eq_some (c : Byte) (b : Nat) :
    charBit c = some b ↔ (c = 0x30 ∧ b = 0) ∨ (c = 0x31 ∧ b = 1) := by
  unfold charBit charZero charOne
  split
  · rename_i h; subst h; simp [eq_comm]
  · rename_i h
    split
    · rename_i h'; subst h'; simp [eq_comm]
    · rename_i h'
      exact ⟨fun e => by simp at e, fun e => e.elim (fun e => absurd e.1 h) (fun e => absurd e.1 h')⟩

/-- A string with a byte other than `'0'` and `'1'` is no word. -/
theorem wordOfChars_eq_none (str : List Byte) :
    wordOfChars str = none ↔ ∃ c ∈ str, c ≠ 0x30 ∧ c ≠ 0x31 := by
  induction str with
  | nil => simp [wordOfChars]
  | cons c rest ih =>
    cases hc : charBit c with
    | none =>
      have h : c ≠ 0x30 ∧ c ≠ 0x31 := by
        constructor <;> rintro rfl <;> simp [charBit, charZero, charOne] at hc
      simp only [wordOfChars, hc, List.mem_cons, exists_eq_or_imp, true_iff]
      exact .inl h
    | some b =>
      have h : ¬ (c ≠ 0x30 ∧ c ≠ 0x31) := by
        rcases (charBit_eq_some c b).mp hc with ⟨rfl, -⟩ | ⟨rfl, -⟩ <;> simp
      cases hr : wordOfChars rest with
      | none => simp only [wordOfChars, hc, hr, List.mem_cons, exists_eq_or_imp, h, false_or, true_iff]; exact ih.mp hr
      | some x =>
        simp only [wordOfChars, hc, hr, List.mem_cons, exists_eq_or_imp, h, false_or, reduceCtorEq, false_iff]
        exact fun he => by simp [ih.mpr he] at hr

/-- Bit `i` of a string's word is set exactly when character `i` is `'1'`, and the word ends with the string
(20_memory.md R42). -/
theorem wordOfChars_spec {str : List Byte} {x : Nat} (h : wordOfChars str = some x) :
    x < 2 ^ str.length ∧ ∀ i, x.testBit i = true ↔ str[i]? = some 0x31 := by
  induction str generalizing x with
  | nil =>
    simp only [wordOfChars, Option.some.injEq] at h
    subst h
    simp
  | cons c rest ih =>
    cases hc : charBit c with
    | none => simp [wordOfChars, hc] at h
    | some b =>
      cases hr : wordOfChars rest with
      | none => simp [wordOfChars, hc, hr] at h
      | some y =>
        simp only [wordOfChars, hc, hr, Option.some.injEq] at h
        obtain ⟨hy, hbits⟩ := ih hr
        have hb : b < 2 ^ 1 := by
          rcases (charBit_eq_some c b).mp hc with ⟨-, rfl⟩ | ⟨-, rfl⟩ <;> decide
        have hx : x = y * 2 + b := by
          rw [← h, Nat.or_comm, ← Nat.shiftLeft_add_eq_or_of_lt hb, Nat.shiftLeft_eq]
        refine ⟨by rw [List.length_cons, Nat.pow_succ]; omega, ?_⟩
        intro i
        cases i with
        | zero =>
          rcases (charBit_eq_some c b).mp hc with ⟨rfl, rfl⟩ | ⟨rfl, rfl⟩ <;>
            simp [Nat.testBit_zero, hx]
        | succ i =>
          have : x / 2 = y := by omega
          rw [Nat.testBit_succ, this, hbits i]
          simp

end Sys2Proof.Machine
end

