-- ==== Sys2Proof/Laws/Zone.lean ====
section
/-! SUPPORT. The zone functions: what each can answer (42_calendar_zone.md R150 to R155). -/

namespace Sys2Proof.Machine

open Sys2Proof.Config

/-- With `TZ_CUTOFF` = none no instant is after the horizon (42_calendar_zone.md R152). -/
@[simp] theorem atOrAfterCutoff_hardware (t : Int) : atOrAfterCutoff hardware t = false := rfl

/-- The offset of this hardware's zone is defined at every instant (42_calendar_zone.md R152). -/
theorem offsetAt_hardware (t : Int) :
    offsetAt hardware t =
      some (if centralEuropean.summerStart (civilOf t).year ≤ t ∧ t < centralEuropean.summerEnd (civilOf t).year
        then 120 else 60) := by
  have h : offsetAt hardware t =
      if centralEuropean.summerStart (civilOf t).year ≤ t ∧ t < centralEuropean.summerEnd (civilOf t).year
        then some 120 else some 60 := rfl
  rw [h]
  split <;> rfl

/-- A defined offset is one of the zone's two. -/
theorem offsetAt_some {P : Params} {t o : Int} (h : offsetAt P t = some o) : o = 60 ∨ o = 120 := by
  unfold offsetAt at h
  split at h
  · cases h
  · dsimp only at h
    split at h <;> cases h
    · exact .inr rfl
    · exact .inl rfl

/-- The candidates of a local time are the offsets the zone admits for it (42_calendar_zone.md R154). -/
theorem mem_localOffsets (P : Params) (L o : Int) : o ∈ localOffsets P L ↔ Admits P L o := by
  simp [localOffsets, Admits, cetOffset, cestOffset]

/-- The four forms the list of candidates can have. -/
theorem localOffsets_cases (P : Params) (L : Int) :
    (¬ Admits P L 60 ∧ ¬ Admits P L 120 ∧ localOffsets P L = []) ∨
    (Admits P L 60 ∧ ¬ Admits P L 120 ∧ localOffsets P L = [60]) ∨
    (¬ Admits P L 60 ∧ Admits P L 120 ∧ localOffsets P L = [120]) ∨
    (Admits P L 60 ∧ Admits P L 120 ∧ localOffsets P L = [60, 120]) := by
  by_cases h1 : offsetAt P (L - 60) = some 60 <;> by_cases h2 : offsetAt P (L - 120) = some 120 <;>
    simp [Admits, localOffsets, cetOffset, cestOffset, h1, h2]

/-- The offset chosen is an admitted one and, where both are admitted, the hint's (42_calendar_zone.md R154). -/
theorem chooseOffset_eq_some (P : Params) (L : Int) (hint : Bool) (o : Int) :
    chooseOffset hint (localOffsets P L) = some o ↔
      Admits P L o ∧ (Admits P L 60 ∧ Admits P L 120 → o = if hint then 120 else 60) := by
  have ho : Admits P L o → o = 60 ∨ o = 120 := fun h => h.1
  rcases localOffsets_cases P L with ⟨h1, h2, h⟩ | ⟨h1, h2, h⟩ | ⟨h1, h2, h⟩ | ⟨h1, h2, h⟩ <;>
    simp only [h, chooseOffset, cestOffset, cetOffset]
  · constructor
    · intro hh; cases hh
    · rintro ⟨ha, -⟩; rcases ho ha with rfl | rfl <;> contradiction
  · constructor
    · intro hh; cases hh; exact ⟨h1, fun hc => absurd hc.2 h2⟩
    · rintro ⟨ha, -⟩; rcases ho ha with rfl | rfl
      · rfl
      · contradiction
  · constructor
    · intro hh; cases hh; exact ⟨h2, fun hc => absurd hc.1 h1⟩
    · rintro ⟨ha, -⟩; rcases ho ha with rfl | rfl
      · contradiction
      · rfl
  · constructor
    · intro hh; cases hh; exact ⟨by cases hint <;> assumption, fun _ => rfl⟩
    · rintro ⟨-, hb⟩; rw [hb ⟨h1, h2⟩]

/-- `zone_local` answers an instant exactly when the zone admits an offset (42_calendar_zone.md R154). -/
theorem zoneLocal_eq_some (P : Params) (c : Civil) (hint : Bool) (t o : Int) :
    zoneLocal P c hint = some (t, o) ↔
      t = minutesOf c - o ∧ Admits P (minutesOf c) o ∧
        (Admits P (minutesOf c) 60 ∧ Admits P (minutesOf c) 120 → o = if hint then 120 else 60) := by
  rw [← chooseOffset_eq_some, zoneLocal]
  cases chooseOffset hint (localOffsets P (minutesOf c)) with
  | none => simp
  | some o' => simp only [Option.some.injEq, Prod.mk.injEq]; constructor <;> rintro ⟨rfl, rfl⟩ <;> exact ⟨rfl, rfl⟩

/-- `zone_local` answers NONEXISTENT exactly when the zone admits neither offset (42_calendar_zone.md R154). -/
theorem zoneLocal_eq_none (P : Params) (c : Civil) (hint : Bool) :
    zoneLocal P c hint = none ↔ ¬ Admits P (minutesOf c) 60 ∧ ¬ Admits P (minutesOf c) 120 := by
  rw [zoneLocal]
  rcases localOffsets_cases P (minutesOf c) with ⟨h1, h2, h⟩ | ⟨h1, h2, h⟩ | ⟨h1, h2, h⟩ | ⟨h1, h2, h⟩ <;>
    simp [h, h1, h2, chooseOffset]

/-- The scan for a Sunday ends on one within its days. -/
theorem sundayDownFrom_eq (year month day : Int) (fuel : Nat) (h : weekdayOf year month day % 7 < fuel) :
    sundayDownFrom year month fuel day = day - weekdayOf year month day % 7 := by
  induction fuel generalizing day with
  | zero => have := weekdayOf_bounds year month day; omega
  | succ fuel ih =>
    have hb := weekdayOf_bounds year month day
    have hk := weekdayOf_day year month day (-1)
    unfold sundayDownFrom
    by_cases h7 : weekdayOf year month day = 7
    · simp [h7]
    · rw [if_neg h7, Int.sub_eq_add_neg, ih]
      · omega
      · omega

/-- The last Sunday by the weekday of the month's last day (42_calendar_zone.md R151). -/
theorem lastSunday_eq (year month : Int) :
    lastSunday year month = daysInMonth year month - weekdayOf year month (daysInMonth year month) % 7 := by
  refine sundayDownFrom_eq year month _ 7 ?_
  have := weekdayOf_bounds year month (daysInMonth year month)
  omega

/-- Summer time begins between day 80 and day 92 of the year, in minutes (42_calendar_zone.md R150). -/
theorem summerStart_bounds (year : Int) :
    daysFromCivil year 1 1 * 1440 + 80 * 1440 ≤ hardware.zone.summerStart year ∧
      hardware.zone.summerStart year ≤ daysFromCivil year 1 1 * 1440 + 92 * 1440 := by
  have e : hardware.zone.summerStart year =
      minutesOf { year := year, month := 3, day := lastSunday year 3, hour := 1, minute := 0 } := rfl
  have hd : daysInMonth year 3 = 31 := daysInMonth_other (by decide)
  have hb := weekdayOf_bounds year 3 31
  rw [e, lastSunday_eq, hd]
  generalize weekdayOf year 3 31 = w at hb ⊢
  simp only [minutesOf, daysFromCivil_eq _ _ _ _ rfl, boolInt]
  norm_num
  omega

/-- Summer time ends between day 290 and day 306 of the year, in minutes (42_calendar_zone.md R150). -/
theorem summerEnd_bounds (year : Int) :
    daysFromCivil year 1 1 * 1440 + 290 * 1440 ≤ hardware.zone.summerEnd year ∧
      hardware.zone.summerEnd year ≤ daysFromCivil year 1 1 * 1440 + 306 * 1440 := by
  have e : hardware.zone.summerEnd year =
      minutesOf { year := year, month := 10, day := lastSunday year 10, hour := 1, minute := 0 } := rfl
  have hd : daysInMonth year 10 = 31 := daysInMonth_other (by decide)
  have hb := weekdayOf_bounds year 10 31
  rw [e, lastSunday_eq, hd]
  generalize weekdayOf year 10 31 = w at hb ⊢
  simp only [minutesOf, daysFromCivil_eq _ _ _ _ rfl, boolInt]
  norm_num
  omega

end Sys2Proof.Machine
end

