-- ==== Sys2Proof/Laws/Decoder.lean ====
section
/-! SUPPORT. The decoder's fields and checks: the machine's tests and the checks of Safety say the same. -/

namespace Sys2Proof.Machine

open Sys2Proof.Config

/-- A field of at most eight bits, decoded, is what its two digits write. -/
theorem bcdDecode_field (x lo hi : Nat) (h : hi - lo + 1 ≤ 8) :
    bcdDecode (extractBits x lo hi) = digitsOf (fieldOf x lo (hi - lo + 1)) := by
  have hlt := extractBits_lt x lo hi
  have hp : 2 ^ (hi - lo + 1) ≤ 2 ^ 8 := Nat.pow_le_pow_right (by decide) h
  rw [bcdDecode_eq _ (by omega), extractBits_eq]
  rfl

/-- A field of at most three bits is its own digit (40_bitfield.md R102). -/
theorem bcdDecode_digit (x lo hi : Nat) (h : hi - lo + 1 ≤ 3) :
    bcdDecode (extractBits x lo hi) = fieldOf x lo (hi - lo + 1) := by
  have hlt := extractBits_lt x lo hi
  have hp : 2 ^ (hi - lo + 1) ≤ 2 ^ 3 := Nat.pow_le_pow_right (by decide) h
  rw [bcdDecode_eq _ (by omega), extractBits_eq] at *
  unfold fieldOf
  omega

/-- The datetime the decoder constructs is the one the frame's digits write. -/
@[simp] theorem frameFields_civil (x : Nat) : (frameFields x).civil = frameCivil x := by
  simp only [frameFields, FrameFields.civil, frameCivil, centuryBase, bcdDecode_field x 21 27 (by decide),
    bcdDecode_field x 29 34 (by decide), bcdDecode_field x 36 41 (by decide), bcdDecode_field x 45 49 (by decide),
    bcdDecode_field x 50 57 (by decide)]

@[simp] theorem frameFields_wday (x : Nat) : (frameFields x).wday = fieldOf x 42 3 :=
  bcdDecode_digit x 42 44 (by decide)

/-- The offset the flags claim, in the machine's words and in those of the claims. -/
theorem claimedOffset_eq (x : Nat) : claimedOffset x = flagOffset x := by
  simp [claimedOffset, flagOffset, cetOffset, cestOffset]

/-- A frame's offset is the one the zone gives with bit 17 as the hint (43_decoder.md R180). -/
theorem frameOffset_iff (P : Params) (x : Nat) (o : Int) :
    FrameOffset P x o ↔ zoneLocal P (frameCivil x) (bitAt x 17 == 1) = some (minutesOf (frameCivil x) - o, o) := by
  rw [zoneLocal_eq_some]
  simp [FrameOffset, flagOffset]

/-- A frame's datetime has at most one offset. -/
theorem frameOffset_unique {P : Params} {x : Nat} {o o' : Int} (h : FrameOffset P x o) (h' : FrameOffset P x o') :
    o = o' := by
  rw [frameOffset_iff] at h h'
  rw [h] at h'
  simpa using congrArg (fun z => z.map Prod.snd) h'

/-- The decoder's checks as the machine tests them (43_decoder.md R170). -/
def passes (P : Params) (x : Nat) : Nat → Bool
  | 0 => isFrame x
  | 1 => bitAt x 0 == 0
  | 2 => bitAt x 17 != bitAt x 18
  | 3 => bitAt x 20 == 1
  | 4 => parityOfRange x 21 27 == bitAt x 28
  | 5 => parityOfRange x 29 34 == bitAt x 35
  | 7 => parityOfRange x 36 57 == bitAt x 58
  | 8 => bitAt x 59 == 0
  | 9 => validCivil (frameFields x).civil && (zoneLocal P (frameFields x).civil (bitAt x 17 == 1)).isSome
  | 10 => weekdayOf (frameFields x).year (frameFields x).month (frameFields x).day == (frameFields x).wday
  | 11 => (zoneLocal P (frameFields x).civil (bitAt x 17 == 1)).map Prod.snd == some (claimedOffset x)
  | 12 =>
    match zoneLocal P (frameFields x).civil (bitAt x 17 == 1) with
    | some z => announcementAgrees P x z.1
    | none => true
  | _ => true

/-- `zone_local` answers the instant that belongs to its offset. -/
theorem zoneLocal_instant {P : Params} {c : Civil} {hint : Bool} {z : Int × Int} (h : zoneLocal P c hint = some z) :
    z = (minutesOf c - z.2, z.2) := by
  obtain ⟨t, o⟩ := z
  rw [zoneLocal_eq_some] at h
  simp [h.1]

/-- The announcement check in both wordings (43_decoder.md R183). -/
theorem announcementAgrees_iff (P : Params) (x : Nat) (t : Int) :
    announcementAgrees P x t = true ↔ ∀ v, announce P t = some v → x.testBit 16 = v := by
  unfold announcementAgrees
  cases announce P t with
  | none => simp
  | some v => cases v <;> simp

/-- Each check of Safety holds exactly when the machine's test passes. -/
theorem checkHolds_iff (P : Params) (x k : Nat) : CheckHolds P x k ↔ passes P x k = true := by
  have hf : ∀ o, FrameOffset P x o ↔
      zoneLocal P (frameFields x).civil (bitAt x 17 == 1) = some (minutesOf (frameCivil x) - o, o) := by
    intro o; rw [frameFields_civil]; exact frameOffset_iff P x o
  match k with
  | 0 => simp [CheckHolds, passes]
  | 1 => simp [CheckHolds, passes]
  | 2 => simp [CheckHolds, passes, bitAt_eq_iff]
  | 3 => simp [CheckHolds, passes]
  | 4 => simp only [CheckHolds, passes, beq_iff_eq]; exact (parity_matches_iff x 21 27 (by decide) (by decide)).symm
  | 5 => simp only [CheckHolds, passes, beq_iff_eq]; exact (parity_matches_iff x 29 34 (by decide) (by decide)).symm
  | 6 => simp [CheckHolds, passes]
  | 7 => simp only [CheckHolds, passes, beq_iff_eq]; exact (parity_matches_iff x 36 57 (by decide) (by decide)).symm
  | 8 => simp [CheckHolds, passes]
  | 9 =>
    simp only [CheckHolds, passes, Bool.and_eq_true, hf, frameFields_civil, Option.isSome_iff_exists]
    refine and_congr_right fun _ => ⟨fun ⟨o, h⟩ => ⟨_, h⟩, fun ⟨z, h⟩ => ⟨z.2, ?_⟩⟩
    rw [h, ← zoneLocal_instant h]
  | 10 =>
    have h : weekdayOf (frameFields x).year (frameFields x).month (frameFields x).day =
        weekdayOf (frameFields x).civil.year (frameFields x).civil.month (frameFields x).civil.day := rfl
    simp only [CheckHolds, passes, beq_iff_eq, h, frameFields_civil, frameFields_wday]
  | 11 =>
    simp only [CheckHolds, passes, beq_iff_eq, hf, claimedOffset_eq]
    cases hz : zoneLocal P (frameFields x).civil (bitAt x 17 == 1) with
    | none => simp
    | some z =>
      have := zoneLocal_instant hz
      rw [frameFields_civil] at this
      rw [this]
      simp only [Option.some.injEq, Prod.mk.injEq, Option.map_some]
      constructor
      · exact fun h => h.2
      · intro h; rw [h]; exact ⟨rfl, rfl⟩
  | 12 =>
    simp only [CheckHolds, passes, hf]
    cases hz : zoneLocal P (frameFields x).civil (bitAt x 17 == 1) with
    | none => simp
    | some z =>
      have hi := zoneLocal_instant hz
      rw [frameFields_civil] at hi
      simp only [announcementAgrees_iff]
      constructor
      · intro h v hv
        refine h z.2 v (by rw [← hi]) ?_
        rw [hi] at hv
        exact hv
      · intro h o v ho hv
        rw [Option.some.injEq] at ho
        rw [ho] at h
        exact h v hv
  | _ + 13 => simp [CheckHolds, passes]

end Sys2Proof.Machine
end

