-- ==== Sys2Proof/Laws/Encoder.lean ====
section
/-! SUPPORT. Frame assembly: fields put on a zero field add up, and a parity bit changes no other bit (44_encoder.md R201). -/

namespace Sys2Proof.Machine

/-- A value put above a word that ends below it adds up with it. -/
theorem putField_eq {x lo : Nat} (v : Nat) (h : x < 2 ^ lo) : putField x lo v = v * 2 ^ lo + x := by
  rw [putField, Nat.or_comm, ← Nat.shiftLeft_add_eq_or_of_lt h, Nat.shiftLeft_eq]

/-- The flags lie below the minute field. -/
theorem frameFlags_lt (announced summer : Bool) : frameFlags announced summer < 2 ^ 21 := by
  cases announced <;> cases summer <;> decide

/-- The six fields, each fitting its place, as one sum (44_encoder.md R201 "put never carries into a neighbouring field"). -/
theorem putFields_eq {x m h d w mo y : Nat} (hx : x < 2 ^ 21) (hm : m < 2 ^ 7) (hh : h < 2 ^ 6) (hd : d < 2 ^ 6)
    (hw : w < 2 ^ 3) (hmo : mo < 2 ^ 5) :
    putField (putField (putField (putField (putField (putField x 21 m) 29 h) 36 d) 42 w) 45 mo) 50 y =
      y * 2 ^ 50 + (mo * 2 ^ 45 + (w * 2 ^ 42 + (d * 2 ^ 36 + (h * 2 ^ 29 + (m * 2 ^ 21 + x))))) := by
  rw [putField_eq m hx, putField_eq h (by omega), putField_eq d (by omega), putField_eq w (by omega),
    putField_eq mo (by omega), putField_eq y (by omega)]

/-- A single bit put at `k` sets that bit and no other. -/
theorem testBit_or_bit {p : Nat} (x k i : Nat) (hp : p ≤ 1) :
    (x ||| (p <<< k)).testBit i = (x.testBit i || (decide (i = k) && decide (p = 1))) := by
  rw [Nat.testBit_or, Nat.testBit_shiftLeft]
  rcases (by omega : p = 0 ∨ p = 1) with rfl | rfl
  · simp
  · by_cases h : i = k
    · subst h; simp
    · by_cases h2 : k ≤ i
      · obtain ⟨j, hj⟩ : ∃ j, i - k = j + 1 := ⟨i - k - 1, by omega⟩
        simp [h, hj, Nat.testBit_succ]
      · simp [h2, h]

/-- A bit put outside a range leaves the range's field as it was. -/
theorem extractBits_or_bit {p lo hi k : Nat} (x : Nat) (hp : p ≤ 1) (hk : k < lo ∨ hi < k) (h : lo ≤ hi) :
    extractBits (x ||| (p <<< k)) lo hi = extractBits x lo hi := by
  apply Nat.eq_of_testBit_eq
  intro i
  rw [testBit_extractBits, testBit_extractBits, testBit_or_bit x k (lo + i) hp]
  by_cases hi' : i < hi - lo + 1
  · have : lo + i ≠ k := by omega
    simp [hi', this]
  · simp [hi']

/-- The parity bits as three single bits, each the parity of the range before it (30_encoding.md R72). -/
theorem putParity_eq (x : Nat) :
    putParity x = ((x ||| (parityOfRange x 21 27 <<< 28)) ||| (parityOfRange x 29 34 <<< 35)) |||
      (parityOfRange x 36 57 <<< 58) := by
  have e1 : parityOfRange (x ||| (parityOfRange x 21 27 <<< 28)) 29 34 = parityOfRange x 29 34 := by
    unfold parityOfRange; rw [extractBits_or_bit x (parityOf_le_one _) (by omega) (by omega)]
  have e2 : parityOfRange ((x ||| (parityOfRange x 21 27 <<< 28)) ||| (parityOfRange x 29 34 <<< 35)) 36 57 =
      parityOfRange x 36 57 := by
    unfold parityOfRange
    rw [extractBits_or_bit _ (parityOf_le_one _) (by omega) (by omega),
      extractBits_or_bit x (parityOf_le_one _) (by omega) (by omega)]
  simp only [putParity]
  rw [e1, e2]

/-- Every bit of a word with its parity bits put. -/
theorem testBit_putParity (x i : Nat) :
    (putParity x).testBit i =
      (x.testBit i || (decide (i = 28) && decide (parityOfRange x 21 27 = 1)) ||
        (decide (i = 35) && decide (parityOfRange x 29 34 = 1)) ||
        (decide (i = 58) && decide (parityOfRange x 36 57 = 1))) := by
  have hp : ∀ lo hi, parityOfRange x lo hi ≤ 1 := fun _ _ => parityOf_le_one _
  rw [putParity_eq, testBit_or_bit _ _ _ (hp _ _), testBit_or_bit _ _ _ (hp _ _), testBit_or_bit _ _ _ (hp _ _)]

end Sys2Proof.Machine
end

