-- ==== Sys2Proof/Laws/Exec.lean ====
section
/-! SUPPORT. One lemma for each operation: what its arm of `exec` answers. Later proofs cite these and unfold neither `exec`
nor a meaning. -/

namespace Sys2Proof.Machine

variable (s : State)

@[simp] theorem exec_reserved0 : exec .reserved0 s = .next (s.deliver reservedResponse) := rfl
@[simp] theorem exec_extract (a lo hi : Nat) : exec (.extract a lo hi) s = .next (s.deliver (extractResponse a lo hi)) := rfl
@[simp] theorem exec_bcdDec (a : Nat) : exec (.bcdDec a) s = .next (s.deliver (bcdDecResponse a)) := rfl
@[simp] theorem exec_bcdEnc (a : Nat) : exec (.bcdEnc a) s = .next (s.deliver (bcdEncResponse a)) := rfl
@[simp] theorem exec_parity (a lo hi : Nat) : exec (.parity a lo hi) s = .next (s.deliver (parityResponse a lo hi)) := rfl
@[simp] theorem exec_frameFromWord (a : Nat) :
    exec (.frameFromWord a) s = .next (s.deliver (frameFromWordResponse a)) := rfl
@[simp] theorem exec_frameFromString (sLen : Nat) (str : List Byte) :
    exec (.frameFromString sLen str) s = .next (s.deliver (frameFromStringResponse sLen str)) := rfl
@[simp] theorem exec_bit (a lo : Nat) : exec (.bit a lo) s = .next (s.deliver (bitResponse a lo)) := rfl
@[simp] theorem exec_range (a lo hi : Nat) : exec (.range a lo hi) s = .next (s.deliver (rangeResponse a lo hi)) := rfl
@[simp] theorem exec_decode (a : Nat) : exec (.decode a) s = .next (s.deliver (decodeResponse hardware a)) := rfl
@[simp] theorem exec_encode (year month day hour minute : Nat) :
    exec (.encode year month day hour minute) s =
      .next (s.deliver (encodeResponse hardware (requestCivil year month day hour minute))) := rfl
@[simp] theorem exec_encodeLocal (year month day hour minute : Nat) :
    exec (.encodeLocal year month day hour minute) s =
      .next (s.deliver (encodeLocalResponse hardware (requestCivil year month day hour minute))) := rfl
@[simp] theorem exec_reservedC : exec .reservedC s = .next (s.deliver reservedResponse) := rfl
@[simp] theorem exec_reservedD : exec .reservedD s = .next (s.deliver reservedResponse) := rfl
@[simp] theorem exec_reservedE : exec .reservedE s = .next (s.deliver reservedResponse) := rfl
@[simp] theorem exec_reservedF : exec .reservedF s = .next (s.deliver reservedResponse) := rfl

end Sys2Proof.Machine
end

