-- ==== Sys2Proof/Laws/PerInstr.lean ====
section
/-! SUPPORT. Statements about every operation as syntax, one lemma for each constructor of Instr. -/

namespace Sys2Proof.Laws.RequestRoundTrip

/-- Decoding the request of a well-formed operation gives the operation back. -/
def Statement (i : Instr) : Prop := i.wf = true → decode (encode i) = i

theorem reserved0 : Statement .reserved0 := fun _ => rfl

theorem extract (a lo hi : Nat) : Statement (.extract a lo hi) := by
  intro h
  simp only [Instr.wf, wordFits, indexFits, Bool.and_eq_true, decide_eq_true_eq] at h
  simp [encode, rangeRequest, bareRequest, decode]
  omega

theorem bcdDec (a : Nat) : Statement (.bcdDec a) := by
  intro h
  simp only [Instr.wf, wordFits, decide_eq_true_eq] at h
  simp [encode, wordRequest, bareRequest, decode]
  omega

theorem bcdEnc (a : Nat) : Statement (.bcdEnc a) := by
  intro h
  simp only [Instr.wf, wordFits, decide_eq_true_eq] at h
  simp [encode, wordRequest, bareRequest, decode]
  omega

theorem parity (a lo hi : Nat) : Statement (.parity a lo hi) := by
  intro h
  simp only [Instr.wf, wordFits, indexFits, Bool.and_eq_true, decide_eq_true_eq] at h
  simp [encode, rangeRequest, bareRequest, decode]
  omega

theorem frameFromWord (a : Nat) : Statement (.frameFromWord a) := by
  intro h
  simp only [Instr.wf, wordFits, decide_eq_true_eq] at h
  simp [encode, wordRequest, bareRequest, decode]
  omega

theorem frameFromString (sLen : Nat) (str : List Byte) : Statement (.frameFromString sLen str) := by
  intro h
  simp only [Instr.wf, stringFits, Bool.and_eq_true, decide_eq_true_eq] at h
  simp [encode, bareRequest, decode, stringPort_toList h.2]
  omega

theorem bit (a lo : Nat) : Statement (.bit a lo) := by
  intro h
  simp only [Instr.wf, wordFits, indexFits, Bool.and_eq_true, decide_eq_true_eq] at h
  simp [encode, rangeRequest, bareRequest, decode]
  omega

theorem range (a lo hi : Nat) : Statement (.range a lo hi) := by
  intro h
  simp only [Instr.wf, wordFits, indexFits, Bool.and_eq_true, decide_eq_true_eq] at h
  simp [encode, rangeRequest, bareRequest, decode]
  omega

theorem decode (a : Nat) : Statement (.decode a) := by
  intro h
  simp only [Instr.wf, wordFits, decide_eq_true_eq] at h
  simp [encode, wordRequest, bareRequest, Sys2Proof.decode]
  omega

theorem encode (year month day hour minute : Nat) : Statement (.encode year month day hour minute) := by
  intro h
  simp only [Instr.wf, datetimeFits, Bool.and_eq_true, decide_eq_true_eq] at h
  simp [Sys2Proof.encode, datetimeRequest, bareRequest, Sys2Proof.decode]
  omega

theorem encodeLocal (year month day hour minute : Nat) : Statement (.encodeLocal year month day hour minute) := by
  intro h
  simp only [Instr.wf, datetimeFits, Bool.and_eq_true, decide_eq_true_eq] at h
  simp [Sys2Proof.encode, datetimeRequest, bareRequest, Sys2Proof.decode]
  omega

theorem reservedC : Statement .reservedC := fun _ => rfl
theorem reservedD : Statement .reservedD := fun _ => rfl
theorem reservedE : Statement .reservedE := fun _ => rfl
theorem reservedF : Statement .reservedF := fun _ => rfl

end Sys2Proof.Laws.RequestRoundTrip
end

