-- ==== Sys2Proof/Laws/Step.lean ====
section
/-! SUPPORT. One step, and runs of steps. -/

namespace Sys2Proof.Machine

/-- With no request on the port a step changes nothing. -/
@[simp] theorem step_idle (s : State) (h : s.requests = []) : step s = .next s := by simp [step, h]

/-- With a request on the port a step executes it, the queue moved on. -/
theorem step_request (s : State) (req : Request) (rest : List Request) (h : s.requests = req :: rest) :
    step s = exec (decode req) { s with requests := rest } := by
  simp [step, takeRequest_cons s req rest h]

/-- A request the host issues is executed in the state it was issued in. -/
@[simp] theorem step_issue (s : State) (req : Request) : step (s.issue req) = exec (decode req) s := rfl

/-- A run of one step more goes on from the first step's state. -/
theorem run_succ {s t : State} (n : Nat) (h : step s = .next t) : core.run (n + 1) s = core.run n t := by
  have h' : core.step s = .next t := h
  simp only [Host.Core.run, h']

/-- A run of no step. -/
@[simp] theorem run_zero (s : State) : core.run 0 s = .next s := rfl

end Sys2Proof.Machine
end

