-- ==== Sys2Proof/Tests/Slice0.lean ====
section
/-! SUPPORT. The model's own tests: the form checks, decoding, single steps, and a witness for every statement with
hypotheses. Expected values are the spec's (95_test_vectors.md, by vector number) or written out from the rule named. -/

namespace Sys2Proof.Tests

open Sys2Proof Sys2Proof.Machine

/-- The last response after one step on the request of `i`, from reset. -/
def lastAfter (i : Instr) : Option Response :=
  match step (State.reset.issue (encode i)) with
  | .next s => s.readResponse
  | .fault _ => none
  | .refused _ => none

/-- The bytes of a string of `'0'` and `'1'`. -/
def bytesOf (text : String) : List Byte := text.toList.map fun c => BitVec.ofNat 8 c.toNat

/-- The bit string of the source's first vector (W1). -/
def stringW1 : List Byte := bytesOf "000010100101001000101110010011000001010010001100010000010000"

/-- The parameter value of 95_test_vectors.md §2.7: `TZ_CUTOFF` = 2038-03-28T01:00Z. -/
def cutoff2038 : Config.Params := { zone := hardware.zone, cutoff := some 35889180 }

/-! ### Form: an ill-formed term for each check -/

theorem test_word_too_wide : (Instr.decode (2 ^ 64)).wf = false := by decide
theorem test_widest_word : (Instr.decode (2 ^ 64 - 1)).wf = true := by decide
theorem test_low_index_too_wide : (Instr.extract 0 64 0).wf = false := by decide
theorem test_high_index_too_wide : (Instr.range 0 0 64).wf = false := by decide
theorem test_bit_index_too_wide : (Instr.bit 0 64).wf = false := by decide
theorem test_string_length_too_wide : (Instr.frameFromString 256 (List.replicate 60 0)).wf = false := by decide
theorem test_string_port_too_short : (Instr.frameFromString 59 (List.replicate 59 0x30)).wf = false := by decide
theorem test_string_port_too_long : (Instr.frameFromString 61 (List.replicate 61 0x30)).wf = false := by decide
theorem test_year_too_wide : (Instr.encode 4096 1 1 0 0).wf = false := by decide
theorem test_month_too_wide : (Instr.encode 2020 16 1 0 0).wf = false := by decide
theorem test_day_too_wide : (Instr.encodeLocal 2020 1 32 0 0).wf = false := by decide
theorem test_hour_too_wide : (Instr.encodeLocal 2020 1 1 32 0).wf = false := by decide
theorem test_minute_too_wide : (Instr.encode 2020 1 1 0 64).wf = false := by decide

/-- Month 13 is answered with an error and is no fault of form (44_encoder.md R200). -/
theorem test_month_out_of_domain_is_well_formed : (Instr.encode 2020 13 1 0 0).wf = true := by decide

/-! ### Decoding: every row of 30_encoding.md R62, from a word written out -/

theorem test_decode_reserved0 : decodeTableWord 8 0x0 = some .reserved0 := by decide
theorem test_decode_extract :
    decodeTableWord 80 (0x1 + 2 ^ 4 * 0xffffffffffffffff + 2 ^ 68 * 0 + 2 ^ 74 * 63) =
      some (.extract 0xffffffffffffffff 0 63) := by decide
theorem test_decode_bcdDec : decodeTableWord 72 (0x2 + 2 ^ 4 * 0x1a) = some (.bcdDec 0x1a) := by decide
theorem test_decode_bcdEnc : decodeTableWord 72 (0x3 + 2 ^ 4 * 59) = some (.bcdEnc 59) := by decide
theorem test_decode_parity :
    decodeTableWord 80 (0x4 + 2 ^ 4 * 0x494f17c09120000 + 2 ^ 68 * 21 + 2 ^ 74 * 27) =
      some (.parity 0x494f17c09120000 21 27) := by decide
theorem test_decode_frameFromWord :
    decodeTableWord 72 (0x5 + 2 ^ 4 * 0x8000000000000000) = some (.frameFromWord 0x8000000000000000) := by decide
theorem test_decode_frameFromString :
    decode { bareRequest 0x6 with sLen := 60, s := stringPort stringW1 } = .frameFromString 60 stringW1 := by decide
theorem test_decode_bit :
    decodeTableWord 80 (0x7 + 2 ^ 4 * 0x494f17c09120000 + 2 ^ 68 * 20) = some (.bit 0x494f17c09120000 20) := by decide
theorem test_decode_range :
    decodeTableWord 80 (0x8 + 2 ^ 4 * 0x494f17c09120000 + 2 ^ 68 * 50 + 2 ^ 74 * 57) =
      some (.range 0x494f17c09120000 50 57) := by decide
theorem test_decode_decode :
    decodeTableWord 72 (0x9 + 2 ^ 4 * 0x82312832744a50) = some (.decode 0x82312832744a50) := by decide
theorem test_decode_encode :
    decode { bareRequest 0xA with dtYear := 4095, dtMonth := 12, dtDay := 31, dtHour := 23, dtMinute := 59 } =
      .encode 4095 12 31 23 59 := by decide
theorem test_decode_encodeLocal :
    decode { bareRequest 0xB with dtYear := 2019, dtMonth := 10, dtDay := 27, dtHour := 2, dtMinute := 30 } =
      .encodeLocal 2019 10 27 2 30 := by decide
theorem test_decode_reservedC : decodeTableWord 72 (0xC + 2 ^ 4 * 0x494f17c09120000) = some .reservedC := by decide
theorem test_decode_reservedD : decodeTableWord 8 0xD = some .reservedD := by decide
theorem test_decode_reservedE : decodeTableWord 8 0xE = some .reservedE := by decide
theorem test_decode_reservedF : decodeTableWord 8 0xF = some .reservedF := by decide
theorem test_decode_truncated : decodeBytes [0x01, 0x00] = .error (.truncatedRequest 2) := by rfl
theorem test_table_word_too_long : decodeTableWord 608 0x1 = none := by decide

/-! ### One step -/

/-- V-R1. -/
theorem test_reserved0 : lastAfter .reserved0 = some (errorResponse 4 15 6 0) := by decide
/-- V-R2. -/
theorem test_reservedC :
    (match step (State.reset.issue (wordRequest 0xC 0x494f17c09120000)) with
      | .next s => s.responses
      | _ => []) = [errorResponse 4 15 6 0] := by decide
/-- V-R3. -/
theorem test_reservedD : lastAfter .reservedD = some (errorResponse 4 15 6 0) := by decide
/-- V-R4. -/
theorem test_reservedE : lastAfter .reservedE = some (errorResponse 4 15 6 0) := by decide
/-- V-R5. -/
theorem test_reservedF : lastAfter .reservedF = some (errorResponse 4 15 6 0) := by decide
/-- V-B6. -/
theorem test_extract : lastAfter (.extract 0x0123456789abcdef 4 11) = some (scalarResponse 0xde) := by decide
/-- V-B7. -/
theorem test_extract_swapped :
    lastAfter (.extract 0x494f17c09120000 27 21) = some (errorResponse 4 15 1 0x494f17c09120000) := by decide
/-- V-B12. -/
theorem test_bcdDec_nibble_ten : lastAfter (.bcdDec 0x1a) = some (scalarResponse 20) := by decide
/-- V-B15. -/
theorem test_bcdDec_too_large : lastAfter (.bcdDec 0x100) = some (errorResponse 4 15 2 0x100) := by decide
/-- V-B20. -/
theorem test_bcdEnc_largest : lastAfter (.bcdEnc 99) = some (scalarResponse 0x99) := by decide
/-- V-B21. -/
theorem test_bcdEnc_too_large : lastAfter (.bcdEnc 100) = some (errorResponse 4 15 2 100) := by decide
/-- V-B23. -/
theorem test_parity_odd : lastAfter (.parity 0x82312832744a50 21 27) = some (scalarResponse 1) := by decide
/-- V-B28. -/
theorem test_parity_all_ones : lastAfter (.parity 0xffffffffffffffff 0 63) = some (scalarResponse 0) := by decide
/-- V-F2. -/
theorem test_frameFromWord : lastAfter (.frameFromWord 0x0fffffffffffffff) = some (scalarResponse 0x0fffffffffffffff) := by
  decide
/-- V-F4. -/
theorem test_frameFromWord_bit60 :
    lastAfter (.frameFromWord 0x1000000000000000) = some (errorResponse 1 13 0 0x1000000000000000) := by decide
/-- V-F6. -/
theorem test_frameFromString : lastAfter (.frameFromString 60 stringW1) = some (scalarResponse 0x82312832744a50) := by
  decide
/-- V-F14: a space at position 0. -/
theorem test_frameFromString_space :
    lastAfter (.frameFromString 60 (0x20 :: List.replicate 59 0x30)) = some (errorResponse 1 14 0 0) := by decide
/-- V-F15. -/
theorem test_bit : lastAfter (.bit 0x494f17c09120000 20) = some (scalarResponse 1) := by decide
/-- V-F21: both wrong, the frame test comes first. -/
theorem test_bit_frame_first :
    lastAfter (.bit 0x8000000000000000 63) = some (errorResponse 1 13 0 0x8000000000000000) := by decide
/-- V-F22. -/
theorem test_range : lastAfter (.range 0x494f17c09120000 50 57) = some (scalarResponse 0x25) := by decide
/-- V-F26. -/
theorem test_range_high : lastAfter (.range 0x494f17c09120000 50 60) = some (errorResponse 4 15 1 0x494f17c09120000) := by
  decide
/-- W1: 2020-11-12 01:13, CET. -/
theorem test_decode_w1 :
    lastAfter (.decode 0x82312832744a50) =
      some { Response.zero with qYear := 2020, qMonth := 11, qDay := 12, qHour := 1, qMinute := 13, qCest := 0 } := by
  decide
/-- W2: 2025-07-17 20:48, CEST. -/
theorem test_decode_w2 :
    lastAfter (.decode 0x494f17c09120000) =
      some { Response.zero with qYear := 2025, qMonth := 7, qDay := 17, qHour := 20, qMinute := 48, qCest := 1 } := by
  decide
/-- V-E9: the CEST minute of the fallback hour, announced. -/
theorem test_encode_announced : lastAfter (.encode 2019 10 27 0 30) = some (scalarResponse 0x4661e7846130000) := by decide
/-- V-E20: the largest year of the port. -/
theorem test_encode_largest_year : lastAfter (.encode 4095 12 31 23 59) = some (scalarResponse 0x6583c100b340000) := by
  decide
/-- V-L10: the first minute after the gap. -/
theorem test_encodeLocal : lastAfter (.encodeLocal 2020 3 29 3 0) = some (scalarResponse 0x4807e9060120000) := by decide
/-- V-L15: on the gap day an invalid minute is reported first. -/
theorem test_encodeLocal_invalid_first : lastAfter (.encodeLocal 2020 3 29 2 60) = some (errorResponse 4 15 3 0) := by decide

/-- With no request presented a step gives no response (10_state.md R31). -/
theorem test_step_idle : (match step State.reset with | .next s => s.readResponse | _ => some Response.zero) = none := by
  decide

/-! ### The calendar, the zone and `TZ_CUTOFF` -/

/-- V-C5, V-C6. -/
theorem test_day_counts : daysFromCivil 2100 3 1 = 47541 ∧ daysFromCivil 0 1 1 = -719528 := by decide
/-- V-C9. -/
theorem test_weekdays : weekdayOf 1999 12 31 = 5 ∧ weekdayOf 2099 12 31 = 4 ∧ weekdayOf 2100 3 1 = 1 := by decide
/-- V-C10. -/
theorem test_leap_years : [2000, 2020, 2021, 2100].map isLeap = [true, true, false, false] := by decide
/-- V-C13, V-C18. -/
theorem test_transitions :
    hardware.zone.summerStart 2019 = 25899900 ∧ hardware.zone.summerEnd 2019 = 26202300 ∧
      hardware.zone.summerStart 2100 = 68497980 ∧ hardware.zone.summerEnd 2100 = 68810460 := by decide
/-- V-C20: at a transition the next one is the following one. -/
theorem test_next_transition : nextTransition hardware 26202300 = some 26424060 := by decide
/-- V-C22. -/
theorem test_announce :
    [26202239, 26202240, 26202299, 26202300].map (announce hardware) = [some false, some true, some true, some false] := by
  decide
/-- V-P2: the transition at the cutoff does not exist, so bit 16 is 0. -/
theorem test_cutoff_encode :
    encodeResponse cutoff2038 { year := 2038, month := 3, day := 28, hour := 0, minute := 30 } =
      scalarResponse 0xe07e8826140000 := by decide
/-- V-P4: with no next transition check 12 is skipped. -/
theorem test_cutoff_check12_skipped :
    decodeResponse cutoff2038 0xe07e8826150000 =
      { Response.zero with qYear := 2038, qMonth := 3, qDay := 28, qHour := 1, qMinute := 30 } := by decide
/-- V-P5: the zone is undefined after the cutoff. -/
theorem test_cutoff_check9 : decodeResponse cutoff2038 0xe0f01240120000 = errorResponse 1 9 0 0xe0f01240120000 := by decide
/-- V-P7, V-P8. -/
theorem test_cutoff_encodeLocal :
    encodeLocalResponse cutoff2038 { year := 2038, month := 3, day := 28, hour := 1, minute := 59 } =
        scalarResponse 0xe07e882b340000 ∧
      encodeLocalResponse cutoff2038 { year := 2038, month := 3, day := 28, hour := 2, minute := 0 } =
        errorResponse 4 15 3 0 := by decide

/-! ### A host's program -/

/-- Program P1: the source's bit string, decoded. -/
theorem test_decodeStr_p1 :
    (match decodeStr stringW1 State.reset with | .next s => s.responses | _ => []) =
      [scalarResponse 0x82312832744a50,
       { Response.zero with qYear := 2020, qMonth := 11, qDay := 12, qHour := 1, qMinute := 13 }] := by decide
/-- V-F10: 59 characters; the second request is not issued. -/
theorem test_decodeStr_short :
    (match decodeStr (List.replicate 59 0x30) State.reset with | .next s => s.responses | _ => []) =
      [errorResponse 1 14 0 0] := by decide
/-- The forms of 30_encoding.md R65. -/
theorem test_assemble_extract :
    assemble "EXTRACT 0x494f17c09120000, 21, 27".toList = some (.operation (.extract 0x494f17c09120000 21 27)) := by decide
theorem test_assemble_encode :
    assemble "ENCODE 2025-07-17T18:48Z".toList = some (.operation (.encode 2025 7 17 18 48)) := by decide
theorem test_assemble_encodeLocal :
    assemble "ENCODE_LOCAL 2020-11-12T01:13".toList = some (.operation (.encodeLocal 2020 11 12 1 13)) := by decide
theorem test_assemble_decodeStr : assemble "DECODE_STR \"01\"".toList = some (.decodeString [0x30, 0x31]) := by decide
/-- An operand that fits no field stands for no request (log 15). -/
theorem test_assemble_out_of_range : assemble "EXTRACT 1, 64, 3".toList = none := by decide

/-! ### Witnesses: a state and operands that meet the hypotheses of each statement, each clause at a boundary -/

/-- A state that no single operation made: one request waiting, one response delivered. -/
def busy : State := { requests := [encode (.bcdEnc 99), bareRequest 0xF], responses := [errorResponse 4 15 6 0] }

/-- The instant 0 lies outside every summer time, by more than half a day. -/
theorem summer_apart_from_zero (year : Int) :
    (1000 < hardware.zone.summerStart year ∧ 1000 < hardware.zone.summerEnd year) ∨
      (hardware.zone.summerStart year < -1000 ∧ hardware.zone.summerEnd year < -1000) := by
  have hs := summerStart_bounds year
  have he := summerEnd_bounds year
  simp only [daysFromCivil_eq _ _ _ _ rfl, boolInt] at hs he
  norm_num at hs he
  omega

theorem witness_RequestBytesDecodeToTheirOperation :
    [Instr.reserved0, .extract (2 ^ 64 - 1) 63 63, .bcdDec (2 ^ 64 - 1), .bcdEnc 0, .parity 0 63 0,
      .frameFromWord (2 ^ 64 - 1), .frameFromString 255 (List.replicate 60 0xff), .bit 0 63, .range (2 ^ 64 - 1) 0 63,
      .decode (2 ^ 64 - 1), .encode 4095 15 31 31 63, .encodeLocal 0 0 0 0 0, .reservedC, .reservedD, .reservedE,
      .reservedF].all Instr.wf = true := by decide

/-- Two requests of BCD_DEC that differ in every field it does not read. -/
theorem witness_UnreadFieldsHaveNoEffect :
    let p := encode (.bcdDec 0x59)
    let q := { p with lo := 63, hi := 63, sLen := 255, dtYear := 4095, dtMonth := 15, dtDay := 31, dtHour := 31, dtMinute := 63 }
    agreeOnReads p q ∧ p ≠ q := by
  refine ⟨⟨rfl, fun _ => rfl, ?_, ?_, ?_, ?_⟩, by decide⟩ <;> exact fun h => absurd h (by decide)

theorem witness_StepRunsTheDecodedRequest :
    busy.requests = encode (.bcdEnc 99) :: [bareRequest 0xF] ∧ decode (encode (.bcdEnc 99)) = .bcdEnc 99 ∧
      decodeTableWord 8 0x0 = some .reserved0 := by decide

theorem witness_StepWithoutRequestGivesNoResponse : State.reset.requests = [] := by decide

theorem witness_QueuedRequestsAreIndependent :
    busy.requests = [encode (.bcdEnc 99)] ++ bareRequest 0xF :: [] ∧
      busy.requests = [] ++ encode (.bcdEnc 99) :: [bareRequest 0xF] := by decide

/-- A state with a response and a request, its step, and the invariant before it. -/
theorem witness_StepKeepsResponsesLegal : busy.Inv ∧ ∃ t, step busy = .next t ∧ t.responses.length = 2 := by
  refine ⟨fun rsp h => .inr (.inr ?_), _, rfl, by decide⟩
  simp only [busy, List.mem_singleton] at h
  subst h
  unfold Response.resultsZero
  decide

/-- An error of an operation that reads `a` and one of an operation that does not. -/
theorem witness_ErrorsCarryNoPartialResult :
    exec (.bcdEnc 100) busy = .next (answered busy (errorResponse 4 15 2 100)) ∧
      exec (.frameFromString 59 (List.replicate 60 0)) busy = .next (answered busy (errorResponse 1 14 0 0)) ∧
      (errorResponse 4 15 2 100).errKind ≠ 0 ∧ (errorResponse 1 14 0 0).errKind ≠ 0 := by
  refine ⟨rfl, rfl, ?_⟩
  decide

/-- A scalar, a datetime and an error. -/
theorem witness_EachOperationWritesItsOwnFields :
    exec (.bcdEnc 99) busy = .next (answered busy (scalarResponse 0x99)) ∧ (scalarResponse 0x99).errKind = 0 ∧
      opcodeOf (.bcdEnc 99) ≠ 0x9 ∧
      (∃ rsp, exec (.decode 0x494f17c09120000) busy = .next (answered busy rsp) ∧ rsp.errKind = 0 ∧
        opcodeOf (.decode 0x494f17c09120000) = 0x9) ∧
      exec (.bcdEnc 100) busy = .next (answered busy (errorResponse 4 15 2 100)) ∧
      (errorResponse 4 15 2 100).errKind ≠ 0 :=
  ⟨rfl, rfl, by decide, ⟨_, rfl, by decide, by decide⟩, rfl, by decide⟩

/-- No error, an ARGUMENT error and another error. -/
theorem witness_ReservedStatusCodesAreNeverProduced :
    exec (.bcdEnc 99) busy = .next (answered busy (scalarResponse 0x99)) ∧
      exec .reservedF busy = .next (answered busy (errorResponse 4 15 6 0)) ∧
      exec (.frameFromWord (2 ^ 60)) busy = .next (answered busy (errorResponse 1 13 0 0x1000000000000000)) :=
  ⟨rfl, rfl, rfl⟩

theorem witness_ReservedCodesAnswerAnArgumentError :
    Instr.reservedF ∈ [Instr.reserved0, .reservedC, .reservedD, .reservedE, .reservedF] ∧
      { bareRequest 0xC with a := 0x494f17c09120000 }.op ∈ [0x0#4, 0xC#4, 0xD#4, 0xE#4, 0xF#4] := by decide

/-- `lo ≤ hi` at its edges, and `hi < lo` at its edges; PARITY has the same hypotheses. -/
theorem witness_ExtractReturnsTheField :
    (2 ^ 64 - 1 < 2 ^ 64 ∧ 0 < 64 ∧ 63 < 64 ∧ 0 ≤ 63) ∧ (63 < 64 ∧ 63 ≤ 63) ∧ (0 < 64 ∧ 1 < 64 ∧ 0 < 1) ∧ (0 < 63) := by
  decide
theorem witness_ParityCountsOnesModuloTwo :
    (2 ^ 64 - 1 < 2 ^ 64 ∧ 0 < 64 ∧ 63 < 64 ∧ 0 ≤ 63) ∧ (63 < 64 ∧ 63 ≤ 63) ∧ (0 < 64 ∧ 1 < 64 ∧ 0 < 1) ∧ (0 < 63) := by
  decide

theorem witness_BcdDecReturnsTensAndUnits : (0xFF < 2 ^ 64 ∧ 0xFF ≤ 0xFF) ∧ (0x100 < 2 ^ 64 ∧ 0xFF < 0x100) := by decide
theorem witness_BcdEncReturnsPackedDigits : (99 < 2 ^ 64 ∧ 99 ≤ 99) ∧ (100 < 2 ^ 64 ∧ 99 < 100) := by decide

/-- 99; a byte of two digits; a byte with a nibble of 10, for which BCD_ENC does not give the byte back (R105); the largest
byte, which decodes to the bound (R102). -/
theorem witness_BcdRoundTrips :
    99 ≤ 99 ∧ (0x99 ≤ 0xFF ∧ 0x99 / 16 ≤ 9 ∧ 0x99 % 16 ≤ 9) ∧ (0x1A ≤ 0xFF ∧ ¬ 0x1A % 16 ≤ 9) ∧
      bcdEncode (bcdDecode 0x1A) = 0x20 ∧ (0xFF ≤ 0xFF ∧ bcdDecode 0xFF = 165) := by decide

/-- A range, its first and last bit, a pair of its bits, and the bits next to it. -/
theorem witness_FlippedBitsFlipParity :
    (0 ≤ 63 ∧ 63 < 64) ∧ (21 ≤ 27 ∧ 27 < 64) ∧ (21 ≤ 21 ∧ 21 ≤ 27) ∧ (21 ≤ 27 ∧ 27 ≤ 27) ∧
      (21 ≤ 21 ∧ 21 < 27 ∧ 27 ≤ 27) ∧ (20 < 21 ∨ 27 < 20) ∧ (28 < 21 ∨ 27 < 28) := by decide

theorem witness_FrameFromWordChecksTheTopBits :
    (∀ i, 60 ≤ i → i ≤ 63 → (2 ^ 60 - 1).testBit i = false) ∧ (∃ i, 60 ≤ i ∧ i ≤ 63 ∧ (2 ^ 60).testBit i = true) ∧
      (∃ i, 60 ≤ i ∧ i ≤ 63 ∧ (2 ^ 63).testBit i = true) := by
  refine ⟨fun i h _ => Nat.testBit_lt_two_pow ?_, ⟨60, by decide⟩, ⟨63, by decide⟩⟩
  exact Nat.lt_of_lt_of_le (by decide : 2 ^ 60 - 1 < 2 ^ 60) (Nat.pow_le_pow_right (by decide) h)

/-- A frame string; a wrong length of good characters; a wrong last character. -/
theorem witness_FrameFromStringPlacesEachCharacter :
    (stringW1.length = 60 ∧ ∀ c ∈ stringW1, c = 0x30 ∨ c = 0x31) ∧
      (59 < 256 ∧ 59 ≠ 60 ∧ 255 < 256 ∧ 255 ≠ 60) ∧
      ((List.replicate 59 0x30 ++ [0x32] : List Byte).length = 60 ∧
        ∃ c ∈ (List.replicate 59 0x30 ++ [0x32] : List Byte), c ≠ 0x30 ∧ c ≠ 0x31) := by decide

theorem witness_StringsAndFramesCorrespond :
    stringW1.length = 60 ∧ 0x82312832744a50 < 2 ^ 64 ∧
      exec (.frameFromString 60 stringW1) busy = .next (answered busy (scalarResponse 0x82312832744a50)) ∧
      2 ^ 60 - 1 < 2 ^ 60 := ⟨by decide, by decide, rfl, by decide⟩

theorem witness_BitReadsOneFrameBit :
    (2 ^ 60 - 1 < 2 ^ 60 ∧ 59 < 64 ∧ 59 ≤ 59) ∧ (2 ^ 60 - 1 < 2 ^ 60 ∧ 60 < 64 ∧ 59 < 60) ∧
      (2 ^ 60 < 2 ^ 64 ∧ 2 ^ 60 ≤ 2 ^ 60) := by decide
theorem witness_RangeReadsAFrameField :
    (2 ^ 60 - 1 < 2 ^ 60 ∧ 0 ≤ 59 ∧ 59 ≤ 59) ∧ (2 ^ 60 - 1 < 2 ^ 60 ∧ 60 < 64 ∧ (60 < 0 ∨ 59 < 60)) ∧
      (2 ^ 60 - 1 < 2 ^ 60 ∧ 59 < 64 ∧ (58 < 59 ∨ 59 < 58)) ∧ (2 ^ 60 < 2 ^ 64 ∧ 2 ^ 60 ≤ 2 ^ 60) := by decide
theorem witness_FrameAccessorsAgree : 2 ^ 60 - 1 < 2 ^ 60 ∧ 0 ≤ 59 ∧ 59 ≤ 59 := by decide

/-- A day inside a month, the leap day, a month's end and a year's end. -/
theorem witness_DayCountFollowsTheCalendar :
    (28 < daysInMonth 2020 2 ∧ 29 = daysInMonth 2020 2 ∧ 28 = daysInMonth 2100 2) ∧
      (30 = daysInMonth 2020 11 ∧ (11 : Int) < 12) ∧ 31 = daysInMonth (-1) 12 := by decide

theorem witness_CivilDatetimesAndMinutesAreInverse :
    validCivil { year := -1, month := 12, day := 31, hour := 23, minute := 59 } = true ∧
      validCivil { year := 2000, month := 2, day := 29, hour := 0, minute := 0 } = true := by decide

/-- The last Sunday itself, in the first and the last month. -/
theorem witness_LastSundayIsTheLargestSunday :
    (1 ≤ (1 : Int) ∧ (12 : Int) ≤ 12) ∧ 30 ≤ daysInMonth 2025 3 ∧ weekdayOf 2025 3 30 = 7 := by decide

/-- The first and last minute of a summer time, the cutoff and the minute before it, and an instant outside every summer
time. -/
theorem witness_SummerTimeRunsFromMarchToOctober :
    (∃ year, hardware.zone.summerStart year ≤ 26424060 ∧ 26424060 < hardware.zone.summerEnd year) ∧
      (∃ year, hardware.zone.summerStart year ≤ 26726459 ∧ 26726459 < hardware.zone.summerEnd year) ∧
      offsetAt cutoff2038 35889179 = some 60 ∧ offsetAt cutoff2038 35889180 = none ∧
      ∀ year, 0 < hardware.zone.summerStart year ∨ hardware.zone.summerEnd year ≤ 0 :=
  ⟨⟨2020, by decide⟩, ⟨2020, by decide⟩, by decide, by decide, fun year => by
    have := summer_apart_from_zero year; omega⟩

theorem witness_NextTransitionIsTheEarliestAfter :
    IsTransition hardware 26202300 ∧ nextTransition hardware 26202299 = some 26202300 ∧
      nextTransition cutoff2038 35889179 = none := ⟨⟨2019, by decide⟩, by decide, by decide⟩

/-- The first and the last instant of a window, an instant in no window, and the edges of the local hour. -/
theorem witness_AnnouncementMarksTheHourBeforeATransition :
    (∃ n, IsTransition hardware n ∧ n - 60 ≤ 26202240 ∧ 26202240 ≤ n - 1) ∧
      (∃ n, IsTransition hardware n ∧ n - 60 ≤ 26202299 ∧ 26202299 ≤ n - 1) ∧
      (∀ n, IsTransition hardware n → 0 < n - 60 ∨ n - 1 < 0) ∧ ((0 : Int) ≤ 0 ∧ (59 : Int) < 60) := by
  refine ⟨⟨26202300, ⟨2019, by decide⟩, by decide⟩, ⟨26202300, ⟨2019, by decide⟩, by decide⟩, ?_, by decide⟩
  rintro n ⟨year, rfl | rfl⟩
  · have := summer_apart_from_zero year; omega
  · have := summer_apart_from_zero year; omega

/-- The edges of a gap hour and of a fallback hour (V-L7, V-L8, V-L2, V-L3). -/
theorem witness_GapAndFallbackHoursAreTheOnlyExceptions :
    (¬ Admits hardware 26424120 60 ∧ ¬ Admits hardware 26424120 120) ∧
      (¬ Admits hardware 26424179 60 ∧ ¬ Admits hardware 26424179 120) ∧
      (Admits hardware 26202360 60 ∧ Admits hardware 26202360 120) ∧
      (Admits hardware 26202419 60 ∧ Admits hardware 26202419 120) := by
  unfold Admits
  decide

theorem witness_NothingIsDefinedAtOrAfterTheCutoff :
    nextTransition { zone := hardware.zone, cutoff := some 26202301 } 26202299 = some 26202300 ∧
      nextTransition { zone := hardware.zone, cutoff := none } 26202299 = some 26202300 := by decide

/-- For each check a frame that passes all earlier ones and fails it: V-D12, V-D3, V-D4, V-D6 to V-D10, V-D23, V-D16, V-D33
and V-D21. -/
theorem witness_DecodeReportsTheFirstViolatedCheck :
    ∀ p ∈ [(0, 0x8494f17c09120000), (1, 0x494f17c09120001), (2, 0x494f17c09160000), (3, 0x494f17c09020000),
        (4, 0x494f17c19120000), (5, 0x494f17409120000), (7, 0x94f17c09120000), (8, 0xc94f17c09120000),
        (9, 0x4807e9846150000), (10, 0x482352832740000), (11, 0x494f17c09140000), (12, 0x4807e9826140000)],
      p.2 < 2 ^ 64 ∧ p.1 ≤ 12 ∧ (∀ j < p.1, CheckHolds hardware p.2 j) ∧ ¬ CheckHolds hardware p.2 p.1 := by
  simp only [checkHolds_iff]
  decide

/-- With the cutoff of V-P5 a frame after it has no offset: check 9. -/
theorem witness_DecodeReportsTheFirstViolatedCheck_cutoff :
    (∀ j < 9, CheckHolds cutoff2038 0xe0f01240120000 j) ∧ ¬ CheckHolds cutoff2038 0xe0f01240120000 9 := by
  simp only [checkHolds_iff]
  decide

/-- W1, W2, the announced CEST and the CET minute of a fallback hour, and a year of 2100 (V-D24, V-D25, V-D29). -/
theorem witness_DecodeReturnsTheDatetime :
    ∀ x ∈ [0x82312832744a50, 0x494f17c09120000, 0x4661e7846130000, 0x4661e7846140000, 0x280641220140000],
      x < 2 ^ 64 ∧ ∀ k ≤ 12, CheckHolds hardware x k := by
  simp only [checkHolds_iff]
  decide

/-- With a cutoff: check 12 skipped for either value of bit 16, and a frame before the cutoff (V-P3, V-P4, V-P6). -/
theorem witness_DecodeReturnsTheDatetime_cutoff :
    ∀ x ∈ [0xe07e8826140000, 0xe07e8826150000, 0xde1e5846130000], ∀ k ≤ 12, CheckHolds cutoff2038 x k := by
  simp only [checkHolds_iff]
  decide

/-- W1 with all unexamined bits set (V-D19), and with none: a success; and the same with bit 0 set: an error. -/
theorem witness_DecodeIgnoresUnexaminedBits :
    (∀ i, ¬ (1 ≤ i ∧ i ≤ 15) → i ≠ 19 → Nat.testBit 0x823128327cfffe i = Nat.testBit 0x82312832740000 i) ∧
      (∀ i, ¬ (1 ≤ i ∧ i ≤ 15) → i ≠ 19 → Nat.testBit 0x823128327cffff i = Nat.testBit 0x82312832740001 i) ∧
      (∃ rsp, exec (.decode 0x823128327cfffe) busy = .next (answered busy rsp) ∧ rsp.errKind = 0) ∧
      (∃ rsp, exec (.decode 0x823128327cffff) busy = .next (answered busy rsp) ∧ rsp.errKind ≠ 0) := by
  have bits : ∀ x y : Nat, x < 2 ^ 64 → y < 2 ^ 64 →
      (∀ i : Fin 64, ¬ (1 ≤ i.val ∧ i.val ≤ 15) → i.val ≠ 19 → x.testBit i = y.testBit i) →
      ∀ i, ¬ (1 ≤ i ∧ i ≤ 15) → i ≠ 19 → x.testBit i = y.testBit i := by
    intro x y hx hy h i h1 h2
    by_cases hi : i < 64
    · exact h ⟨i, hi⟩ h1 h2
    · have hp : 2 ^ 64 ≤ 2 ^ i := Nat.pow_le_pow_right (by decide) (by omega)
      rw [Nat.testBit_lt_two_pow (by omega), Nat.testBit_lt_two_pow (by omega)]
  exact ⟨bits _ _ (by decide) (by decide) (by decide), bits _ _ (by decide) (by decide) (by decide), ⟨_, rfl, by decide⟩,
    ⟨_, rfl, by decide⟩⟩

/-- A frame that passes, and the first and last bit of each protected group. -/
theorem witness_FlippedProtectedBitIsDetected :
    (∀ k ≤ 12, CheckHolds hardware 0x494f17c09120000 k) ∧ (21 ≤ 21 ∧ 28 ≤ 28) ∧ (29 ≤ 29 ∧ 35 ≤ 35) ∧
      (36 ≤ 36 ∧ 58 ≤ 58) :=
  ⟨(witness_DecodeReturnsTheDatetime _ (by decide)).2, by decide, by decide, by decide⟩

/-- The smallest and the largest datetime of the port, an invalid one, and the two sides of a cutoff. -/
theorem witness_EncodeReturnsTheFrame :
    (datetimeFits 0 1 1 0 0 = true ∧ validCivil { year := 0, month := 1, day := 1, hour := 0, minute := 0 } = true) ∧
      (datetimeFits 4095 12 31 23 59 = true ∧
        validCivil { year := 4095, month := 12, day := 31, hour := 23, minute := 59 } = true) ∧
      (datetimeFits 4095 15 31 31 63 = true ∧
        validCivil { year := 4095, month := 15, day := 31, hour := 31, minute := 63 } = false) ∧
      (35889180 ≤ minutesOf { year := 2038, month := 3, day := 28, hour := 1, minute := 0 } ∧
        minutesOf { year := 2038, month := 3, day := 28, hour := 0, minute := 59 } < 35889180) := by decide

/-- The minute counts of V-L6 (gap hour), V-L1 (fallback hour), V-L9 (CET) and V-L4 (CEST). -/
theorem test_local_minutes :
    minutesOf { year := 2020, month := 3, day := 29, hour := 2, minute := 30 } = 26424150 ∧
      minutesOf { year := 2019, month := 10, day := 27, hour := 2, minute := 30 } = 26202390 ∧
      minutesOf { year := 2020, month := 3, day := 29, hour := 1, minute := 59 } = 26424119 ∧
      minutesOf { year := 2019, month := 10, day := 27, hour := 1, minute := 59 } = 26202359 := by decide

/-- The gap hour, the fallback hour, and the minutes next to them with one offset. -/
theorem witness_EncodeLocalReturnsTheFrame :
    (¬ Admits hardware 26424150 60 ∧ ¬ Admits hardware 26424150 120) ∧
      (Admits hardware 26202390 60 ∧ Admits hardware 26202390 120) ∧
      (Admits hardware 26424119 60 ∧ ¬ Admits hardware 26424119 (180 - 60)) ∧
      (Admits hardware 26202359 120 ∧ ¬ Admits hardware 26202359 (180 - 120)) := by
  unfold Admits
  decide

/-- The same before a cutoff. -/
theorem witness_EncodeLocalReturnsTheFrame_cutoff :
    (¬ Admits cutoff2038 26424150 60 ∧ ¬ Admits cutoff2038 26424150 120) ∧
      (Admits cutoff2038 26202390 60 ∧ Admits cutoff2038 26202390 120) ∧
      (Admits cutoff2038 26424119 60 ∧ ¬ Admits cutoff2038 26424119 (180 - 60)) ∧
      (Admits cutoff2038 26202359 120 ∧ ¬ Admits cutoff2038 26202359 (180 - 120)) := by
  unfold Admits
  decide

/-- Datetimes that fit the port: an invalid one (V-L15), a valid one of each kind, and the two sides of a cutoff (V-P7,
V-P8). -/
theorem witness_EncodeLocalReturnsTheFrame_datetimes :
    (datetimeFits 2020 3 29 2 60 = true ∧ validCivil { year := 2020, month := 3, day := 29, hour := 2, minute := 60 } = false) ∧
      (datetimeFits 2020 3 29 2 30 = true ∧ validCivil { year := 2020, month := 3, day := 29, hour := 2, minute := 30 } = true) ∧
      (datetimeFits 2019 10 27 2 30 = true ∧
        validCivil { year := 2019, month := 10, day := 27, hour := 2, minute := 30 } = true) ∧
      minutesOf { year := 2038, month := 3, day := 28, hour := 1, minute := 59 } - 60 < 35889180 ∧
      35889180 ≤ minutesOf { year := 2038, month := 3, day := 28, hour := 2, minute := 0 } - 60 := by decide

/-- The first and the last instant whose local year is in the century, and V-E8. -/
theorem witness_DecodeInvertsEncode :
    ∀ p ∈ [(({ year := 1999, month := 12, day := 31, hour := 23, minute := 0 } : Civil), (60 : Int)),
        ({ year := 2099, month := 12, day := 31, hour := 22, minute := 59 }, 60),
        ({ year := 2019, month := 10, day := 27, hour := 0, minute := 0 }, 120)],
      validCivil p.1 = true ∧ offsetAt hardware (minutesOf p.1) = some p.2 ∧
        2000 ≤ (civilOf (minutesOf p.1 + p.2)).year ∧ (civilOf (minutesOf p.1 + p.2)).year ≤ 2099 := by decide

/-- V-E9 and V-E12 are such a pair. -/
theorem witness_FallbackHourFramesBothDecode :
    ((2000 : Int) ≤ 2019 ∧ (2019 : Int) ≤ 2099 ∧ (0 : Int) ≤ 30 ∧ (30 : Int) < 60) ∧
      encodeOf (civilOf (hardware.zone.summerEnd 2019 - 60 + 30)) = .encode 2019 10 27 0 30 ∧
      encodeOf (civilOf (hardware.zone.summerEnd 2019 + 30)) = .encode 2019 10 27 1 30 ∧
      civilOf (hardware.zone.summerEnd 2019 + 60 + 30) = { year := 2019, month := 10, day := 27, hour := 2, minute := 30 } ∧
      0x4661e7846130000 ^^^ 0x4661e7846140000 = 0x70000 := by decide

theorem witness_DecodeStrIsTwoRequests :
    (stringW1.length = 60 ∧ ∀ c ∈ stringW1, c = 0x30 ∨ c = 0x31) ∧
      ((List.replicate 255 (0x30 : Byte)).length < 256 ∧ (List.replicate 255 (0x30 : Byte)).length ≠ 60) ∧
      ((List.replicate 60 (0x32 : Byte)).length < 256 ∧ ∃ c ∈ List.replicate 60 (0x32 : Byte), c ≠ 0x30 ∧ c ≠ 0x31) := by
  refine ⟨by decide, ?_, ?_, ⟨0x32, ?_, by decide⟩⟩
  · rw [List.length_replicate]; decide
  · rw [List.length_replicate]; decide
  · exact List.mem_replicate.mpr (by decide)

theorem witness_AssemblerLinesStandForOperations :
    ("BIT", Instr.bit 0 59).1 = "BIT" ∧ 2 ^ 64 - 1 < 2 ^ 64 ∧ 63 < 64 ∧ datetimeFits 4095 15 31 31 63 = true ∧
      (∀ c ∈ ['0', '1', ' '], c ≠ '"' ∧ c.toNat < 128) ∧ ['0', '1', ' '].length < 256 := by
  refine ⟨rfl, by decide, by decide, by decide, ?_, by decide⟩
  simp

end Sys2Proof.Tests
end

/-! # The family 10_state.md: what a request reads, and what its response can hold

The two ideas. Decoding takes the fields of 10_state.md R22 and no others (`decode_congr`). An operation answers in one of
three ways (`Answers`, `responseOf_answers`): an error of 60_exceptions.md R222, a scalar, or, DECODE alone, a datetime. -/

namespace Sys2Proof.Machine

open Sys2Proof.Config

/-! ## Reads of the response port -/

/-- Before the first response a host read has no value (10_state.md R31). -/
theorem State.readResponse_eq_none {s : State} (h : s.responses = []) : s.readResponse = none := by
  rw [State.readResponse, h, List.getLast?_nil]

/-- A host read gives only a response that was delivered (10_state.md R31). -/
theorem State.mem_responses_of_readResponse {s : State} {rsp : Response} (h : s.readResponse = some rsp) :
    rsp ∈ s.responses :=
  List.mem_of_getLast? h

/-- Settles O6: nothing is delivered at reset, and a read gives a delivered response or nothing. -/
theorem noResponseBeforeTheFirstRequest : Obligations.NoResponseBeforeTheFirstRequest :=
  ⟨rfl, State.readResponse_eq_none rfl, fun _ => State.readResponse_eq_none, fun _ _ =>
    State.mem_responses_of_readResponse⟩

/-! ## One response for each operation -/

/-- Every operation delivers `responseOf` it and leaves the rest of the state as it was. -/
theorem exec_eq_answered (i : Instr) (s : State) : exec i s = .next (answered s (responseOf i)) := by
  cases i <;> rfl

/-- The response an operation was answered with is `responseOf` it, whatever the state. -/
theorem exec_answered_iff (i : Instr) (s : State) (rsp : Response) :
    exec i s = .next (answered s rsp) ↔ rsp = responseOf i := by
  rw [exec_eq_answered]
  simp [answered, eq_comm]

/-- Settles O9: the response is that of the decoded request, in which the state has no part. -/
theorem responseDependsOnTheRequestAlone : Obligations.ResponseDependsOnTheRequestAlone := fun req =>
  ⟨answer req, fun s => by rw [step_issue, exec_eq_answered, answer]⟩

/-! ## The fields a request is decoded from -/

/-- Requests that agree on the fields of 10_state.md R22 decode to one operation: the row of `op` names the fields that its
operands come from, and those are the fields it reads. Case `h_k` is the row of `op` = k, for k from 1. -/
theorem decode_congr {p q : Request} (h : agreeOnReads p q) : decode p = decode q := by
  obtain ⟨hop, ha, hlo, hhi, hstr, hdt⟩ := h
  unfold decode
  rw [← hop]
  generalize p.op = op at ha hlo hhi hstr hdt
  split
  case h_1 | h_4 | h_8 => rw [ha rfl, hlo rfl, hhi rfl]
  case h_7 => rw [ha rfl, hlo rfl]
  case h_2 | h_3 | h_5 | h_9 => rw [ha rfl]
  case h_6 =>
    obtain ⟨hlen, hs⟩ := hstr rfl
    rw [hlen, hs]
  case h_10 | h_11 =>
    obtain ⟨hyear, hmonth, hday, hhour, hminute⟩ := hdt rfl
    rw [hyear, hmonth, hday, hhour, hminute]
  all_goals rfl

/-- Settles O3: a step reads of a request only what it decodes to. -/
theorem unreadFieldsHaveNoEffect : Obligations.UnreadFieldsHaveNoEffect := fun p q s h => by
  rw [step_issue, step_issue, decode_congr h]

/-! ## What an operation can answer -/

/-- The `err_word` of an operation's errors: a copy of `a` if it reads `a`, else 0 (30_encoding.md R81). -/
def errWordOf (i : Instr) : Word :=
  match wordOperand i with
  | some a => copyOfA a
  | none => noWord

/-- The ways an operation can answer (10_state.md R24): with one error of 60_exceptions.md R222, with a scalar unless it is
DECODE, and DECODE with the datetime of its frame, which is valid. -/
inductive Answers : Instr → Response → Prop
  | error {i : Instr} (kind : ErrKind) (tag : ErrTag) (sub : ErrSub)
      (h : (kind.code.toNat, tag.code.toNat, sub.code.toNat) ∈ legalStatuses := by decide) :
      Answers i (raise kind tag sub (errWordOf i))
  | scalar {i : Instr} (v : Nat) (h : opcodeOf i ≠ 0x9 := by simp [opcodeOf]) : Answers i (returnScalar v)
  | datetime {x : Nat} (cest : Bool) (h : validCivil (frameFields x).civil = true) :
      Answers (.decode x) (returnDatetime (frameFields x).year (frameFields x).month (frameFields x).day
        (frameFields x).hour (frameFields x).minute cest)

namespace Answers

/-- A test whose failure is an error and after which the operation goes on. -/
theorem check {i : Instr} {failed : Prop} [Decidable failed] {err rsp : Response} (herr : Answers i err)
    (hrsp : ¬ failed → Answers i rsp) : Answers i (if failed then err else rsp) :=
  iteInduction (fun _ => herr) hrsp

theorem reserved {i : Instr} (h : wordOperand i = none) : Answers i reservedResponse := by
  have hw : errWordOf i = noWord := by rw [errWordOf, h]
  have herr : Answers i (raise .argument .operand .reservedOp (errWordOf i)) := .error ..
  rwa [hw] at herr

theorem extract (a lo hi : Nat) : Answers (.extract a lo hi) (extractResponse a lo hi) :=
  check (.error .argument .operand .index) fun _ => .scalar _

theorem bcdDec (a : Nat) : Answers (.bcdDec a) (bcdDecResponse a) :=
  check (.error .argument .operand .value) fun _ => .scalar _

theorem bcdEnc (a : Nat) : Answers (.bcdEnc a) (bcdEncResponse a) :=
  check (.error .argument .operand .value) fun _ => .scalar _

theorem parity (a lo hi : Nat) : Answers (.parity a lo hi) (parityResponse a lo hi) :=
  check (.error .argument .operand .index) fun _ => .scalar _

theorem frameFromWord (a : Nat) : Answers (.frameFromWord a) (frameFromWordResponse a) :=
  check (.error .structural .frameWord .noDetail) fun _ => .scalar _

theorem frameFromString (sLen : Nat) (str : List Byte) :
    Answers (.frameFromString sLen str) (frameFromStringResponse sLen str) := by
  have noFrame : Answers (.frameFromString sLen str) (raise .structural .frameString .noDetail noWord) :=
    .error .structural .frameString .noDetail
  refine check noFrame fun _ => ?_
  cases wordOfChars (str.take frameBits) with
  | none => exact noFrame
  | some x => exact .scalar x

theorem bit (a lo : Nat) : Answers (.bit a lo) (bitResponse a lo) :=
  check (.error .structural .frameWord .noDetail) fun _ =>
    check (.error .argument .operand .index) fun _ => .scalar _

theorem range (a lo hi : Nat) : Answers (.range a lo hi) (rangeResponse a lo hi) :=
  check (.error .structural .frameWord .noDetail) fun _ =>
    check (.error .argument .operand .index) fun _ => .scalar _

/-- Checks 10 to 12, of a frame whose datetime is valid. -/
theorem decodeZoned (P : Params) (x : Nat) (t o : Int) (h : validCivil (frameFields x).civil = true) :
    Answers (.decode x) (decodeZoned P x t o) :=
  check (.error .consistency .weekday .noDetail) fun _ =>
    check (.error .consistency .timezoneOffset .noDetail) fun _ =>
      check (.error .consistency .announcement .noDetail) fun _ => .datetime _ h

/-- Check 9 and what follows it. -/
theorem decodeDatetime (P : Params) (x : Nat) : Answers (.decode x) (decodeDatetime P x) := by
  have invalidDate : Answers (.decode x) (raise .structural .invalidDate .noDetail (copyOfA x)) :=
    .error .structural .invalidDate .noDetail
  refine check invalidDate fun hvalid => ?_
  cases zoneLocal P (frameFields x).civil (bitAt x 17 == 1) with
  | none => exact invalidDate
  | some z => exact decodeZoned P x z.1 z.2 (by simpa using hvalid)

/-- The checks of DECODE in their order. -/
theorem decode (P : Params) (x : Nat) : Answers (.decode x) (decodeResponse P x) := by
  refine check (.error .structural .frameWord .noDetail) fun _ => ?_
  refine check (.error .structural .startOfMinute .noDetail) fun _ => ?_
  refine check (.error .consistency .cetCestFlags .noDetail) fun _ => ?_
  refine check (.error .structural .startOfTime .noDetail) fun _ => ?_
  refine check (.error .parity .minutes .noDetail) fun _ => ?_
  refine check (.error .parity .hours .noDetail) fun _ => ?_
  refine check (.error .parity .date .noDetail) fun _ => ?_
  refine check (.error .structural .endOfMinute .noDetail) fun _ => ?_
  exact decodeDatetime P x

theorem encode (P : Params) (year month day hour minute : Nat) (c : Civil) :
    Answers (.encode year month day hour minute) (encodeResponse P c) := by
  have badTime : Answers (.encode year month day hour minute) (raiseArgument .datetime noWord) :=
    .error .argument .operand .datetime
  refine check badTime fun _ => ?_
  cases offsetAt P (minutesOf c) with
  | none => exact badTime
  | some o => exact .scalar _

theorem encodeLocal (P : Params) (year month day hour minute : Nat) (c : Civil) :
    Answers (.encodeLocal year month day hour minute) (encodeLocalResponse P c) := by
  have badTime : Answers (.encodeLocal year month day hour minute) (raiseArgument .datetime noWord) :=
    .error .argument .operand .datetime
  refine check badTime fun _ => check badTime fun _ => ?_
  split
  · exact .error .argument .operand .gapHour
  · exact .scalar _
  · exact .error .argument .operand .fallbackHour

end Answers

/-- Every response is one of an operation's ways to answer. -/
theorem responseOf_answers (i : Instr) : Answers i (responseOf i) := by
  cases i with
  | reserved0 | reservedC | reservedD | reservedE | reservedF => exact .reserved rfl
  | extract a lo hi => exact .extract a lo hi
  | bcdDec a => exact .bcdDec a
  | bcdEnc a => exact .bcdEnc a
  | parity a lo hi => exact .parity a lo hi
  | frameFromWord a => exact .frameFromWord a
  | frameFromString sLen str => exact .frameFromString sLen str
  | bit a lo => exact .bit a lo
  | range a lo hi => exact .range a lo hi
  | decode a => exact .decode hardware a
  | encode year month day hour minute => exact .encode hardware year month day hour minute _
  | encodeLocal year month day hour minute => exact .encodeLocal hardware year month day hour minute _

/-- Settles O15, by the three ways to answer. -/
theorem eachOperationWritesItsOwnFields : Obligations.EachOperationWritesItsOwnFields := by
  intro i s rsp h
  have answers := responseOf_answers i
  rw [← (exec_answered_iff i s rsp).mp h] at answers
  cases answers with
  | error kind tag sub _ =>
    exact ⟨fun succeeds => absurd succeeds (raise_errKind_ne_zero _ _ _ _), fun _ => raise_resultsZero _ _ _ _⟩
  | scalar v hop =>
    exact ⟨fun _ => ⟨rfl, rfl, rfl, fun decodes => absurd decodes hop, fun _ => ⟨rfl, rfl, rfl, rfl, rfl, rfl⟩⟩,
      fun fails => absurd rfl fails⟩
  | datetime cest _ =>
    exact ⟨fun _ => ⟨rfl, rfl, rfl, fun _ => rfl, fun other => absurd rfl other⟩, fun fails => absurd rfl fails⟩

end Sys2Proof.Machine

/-! # The family 30_encoding.md: operation codes, reserved codes, decimal weights and error responses

The two ideas. `op` is the code of what it decodes to (`opcodeOf_decode`), so a reserved `op` decodes to a reserved
operation. The BCD value of any number is a sum of weights over its low bits (`bcdDecode_eq_weigh`), and the bits of a
field are those of the word up to the field's width (`weigh_extractBits`). -/

namespace Sys2Proof.Machine

/-! ## The operation a code selects -/

/-- The operation a request decodes to has the request's `op` as its code (30_encoding.md R61, R62). Every row but the last
of `decode` names its code; the last takes what is left, and 0 alone is left. -/
theorem opcodeOf_decode (req : Request) : opcodeOf (decode req) = req.op := by
  unfold decode
  split
  case h_16 =>
    generalize req.op = op at *
    revert op
    decide
  all_goals exact Eq.symm ‹_›

/-- The operands a request decodes to fit the fields they came from (30_encoding.md R64). -/
theorem wf_decode (req : Request) : (decode req).wf = true := by
  have word : wordFits req.a.toNat = true := decide_eq_true req.a.isLt
  have low : indexFits req.lo.toNat = true := decide_eq_true req.lo.isLt
  have high : indexFits req.hi.toNat = true := decide_eq_true req.hi.isLt
  have string : stringFits req.sLen.toNat req.s.toList = true := by
    simp [stringFits, req.sLen.isLt]
  have datetime : datetimeFits req.dtYear.toNat req.dtMonth.toNat req.dtDay.toNat req.dtHour.toNat
      req.dtMinute.toNat = true := by
    simp [datetimeFits, req.dtYear.isLt, req.dtMonth.isLt, req.dtDay.isLt, req.dtHour.isLt, req.dtMinute.isLt]
  unfold decode
  split <;> simp only [Instr.wf, word, low, high, string, datetime, Bool.and_self]

/-- Settles O2: the code of the decoded operation is `op`, and its operands are the values of fields. -/
theorem opcodeAloneSelectsTheOperation : Obligations.OpcodeAloneSelectsTheOperation := fun req =>
  ⟨opcodeOf_decode req, wf_decode req⟩

/-! ## Reserved codes -/

/-- The operations of the reserved codes (30_encoding.md R63). -/
def reservedInstrs : List Instr := [.reserved0, .reservedC, .reservedD, .reservedE, .reservedF]

/-- An operation whose code is reserved is a reserved operation. -/
theorem mem_reservedInstrs_of_opcodeOf {i : Instr} (h : opcodeOf i ∈ [0x0#4, 0xC#4, 0xD#4, 0xE#4, 0xF#4]) :
    i ∈ reservedInstrs := by
  cases i with
  | reserved0 | reservedC | reservedD | reservedE | reservedF => decide
  | _ => exact absurd h (by simp [opcodeOf])

/-- A reserved operation appends ARGUMENT 15/6 with `err_word` 0 and has no other effect (30_encoding.md R63). -/
theorem exec_of_mem_reservedInstrs {i : Instr} (s : State) (h : i ∈ reservedInstrs) :
    exec i s = .next (answered s (errorResponse 4 15 6 0)) := by
  have response : responseOf i = reservedResponse := by
    cases i with
    | reserved0 | reservedC | reservedD | reservedE | reservedF => rfl
    | _ => simp [reservedInstrs] at h
  have status : reservedResponse = errorResponse 4 15 6 0 := raiseArgument_eq _ _
  rw [exec_eq_answered, response, status]

/-- Settles O17: what a reserved `op` decodes to has that code, so it is a reserved operation. -/
theorem reservedCodesAnswerAnArgumentError : Obligations.ReservedCodesAnswerAnArgumentError := by
  refine ⟨fun s i h => exec_of_mem_reservedInstrs s h, fun s req h => ?_⟩
  rw [step_issue]
  exact exec_of_mem_reservedInstrs s (mem_reservedInstrs_of_opcodeOf (by rwa [opcodeOf_decode]))

/-! ## Error responses -/

/-- An answer with an error is a raised error: it has no result, and its `err_word` is that of the operation. -/
theorem Answers.of_errKind_ne_zero {i : Instr} {rsp : Response} (h : Answers i rsp) (fails : rsp.errKind ≠ 0) :
    rsp.resultsZero ∧ rsp.errWord = errWordOf i := by
  cases h with
  | error kind tag sub _ => exact ⟨raise_resultsZero _ _ _ _, raise_errWord _ _ _ _⟩
  | scalar v _ => exact absurd rfl fails
  | datetime cest _ => exact absurd rfl fails

/-- Settles O14, by the ways an operation can answer, of which one is an error. -/
theorem errorsCarryNoPartialResult : Obligations.ErrorsCarryNoPartialResult := by
  refine ⟨raise_eq, fun i s rsp h fails => ?_⟩
  obtain rfl := (exec_answered_iff i s rsp).mp h
  exact (responseOf_answers i).of_errKind_ne_zero fails

/-! ## The decimal weights of a frame's bits -/

/-- The sum of the weights `ws`, from bit `lo` of `x` up, over the bits that are 1 (30_encoding.md R71). -/
def weigh (x lo : Nat) (ws : List Nat) : Nat :=
  (ws.zipIdx.map fun p => if x.testBit (lo + p.2) then p.1 else 0).sum

@[simp] theorem weigh_nil (x lo : Nat) : weigh x lo [] = 0 := rfl

/-- The first weight belongs to bit `lo`, the others to the bits from `lo + 1` up. -/
@[simp] theorem weigh_cons (x lo w : Nat) (ws : List Nat) :
    weigh x lo (w :: ws) = w * bitAt x lo + weigh x (lo + 1) ws := by
  have first : (if x.testBit lo then w else 0) = w * bitAt x lo := by
    unfold bitAt; cases x.testBit lo <;> simp
  simp [weigh, List.zipIdx_cons, List.zipIdx_succ, Function.comp_def, Nat.add_assoc, Nat.add_comm 1, first]

/-- Bit `k` of a field is bit `lo + k` of the word within the field's width and 0 above it, so weights from bit `k` of the
field are weights of the word, cut at the width. -/
theorem weigh_extractBits (x lo hi k : Nat) (ws : List Nat) :
    weigh (extractBits x lo hi) k ws = weigh x (lo + k) (ws.take (hi - lo + 1 - k)) := by
  induction ws generalizing k with
  | nil => simp
  | cons w ws ih =>
    rw [weigh_cons, ih]
    by_cases hk : k < hi - lo + 1
    · have width : hi - lo + 1 - k = hi - lo + 1 - (k + 1) + 1 := by omega
      simp [width, bitAt, hk, Nat.add_assoc]
    · have width : hi - lo + 1 - k = 0 := by omega
      have width' : hi - lo + 1 - (k + 1) = 0 := by omega
      simp [width, width', bitAt, hk]

/-- The weights of a BCD byte's bits: units, then tens (30_encoding.md R71). -/
def bcdWeights : List Nat := [1, 2, 4, 8, 10, 20, 40, 80]

/-- BCD decode weighs the eight lowest bits: each nibble is the sum of its bits times 1, 2, 4 and 8. -/
theorem bcdDecode_eq_weigh (v : Nat) : bcdDecode v = weigh v 0 bcdWeights := by
  simp only [bcdDecode, extractBits_eq, bcdWeights, weigh_cons, weigh_nil, bitAt, Nat.toNat_testBit]
  omega

/-- A decoded BCD field is the sum of its bits' weights, as many as the field is wide (30_encoding.md R71). -/
theorem bcdDecode_extractBits (x lo hi : Nat) :
    bcdDecode (extractBits x lo hi) = weigh x lo (bcdWeights.take (hi - lo + 1)) := by
  rw [bcdDecode_eq_weigh, weigh_extractBits, Nat.add_zero, Nat.sub_zero]

/-- Settles O30: each field is a BCD field of its own width, and the year is counted from 2000. -/
theorem fieldBitsHaveDecimalWeights : Obligations.FieldBitsHaveDecimalWeights := fun x =>
  ⟨bcdDecode_extractBits x 21 27, bcdDecode_extractBits x 29 34, bcdDecode_extractBits x 36 41,
    bcdDecode_extractBits x 42 44, bcdDecode_extractBits x 45 49,
    (Nat.add_comm _ _).trans (congrArg (2000 + ·) (bcdDecode_extractBits x 50 57))⟩

end Sys2Proof.Machine

/-! # The family 40_bitfield.md: EXTRACT, BCD_DEC, BCD_ENC and PARITY

The two ideas. Each of the four operations rejects its operands or answers a scalar, and does nothing else
(`exec_of_guard`). A count of 1 bits is the sum of the bits of the range, so flipping one bit of the range changes one
summand, from 0 to 1 or back (`onesIn_flip`), and so the parity. -/

namespace Sys2Proof.Machine

/-! ## One check of the operands, then a scalar -/

/-- An operation that does nothing but reject its operands with ARGUMENT or answer a scalar: what it does in each case. -/
theorem exec_of_guard {i : Instr} {rejected : Prop} [Decidable rejected] {sub : ErrSub} {a v : Nat} (s : State)
    (h : responseOf i = if rejected then raiseArgument sub (copyOfA a) else returnScalar v) :
    (¬ rejected → exec i s = .next (answered s (scalarResponse v))) ∧
    (rejected → exec i s = .next (answered s (errorResponse 4 15 sub.code.toNat (BitVec.ofNat 64 a)))) := by
  rw [exec_eq_answered, h]
  refine ⟨fun accepted => ?_, fun isRejected => ?_⟩
  · rw [if_neg accepted, returnScalar_eq]
  · rw [if_pos isRejected, raiseArgument_eq, copyOfA]

/-- Settles O18, with the field as a quotient modulo its width (40_bitfield.md R101). -/
theorem extractReturnsTheField : Obligations.ExtractReturnsTheField := by
  intro s a lo hi _ _ _
  obtain ⟨accepts, rejects⟩ := exec_of_guard (i := .extract a lo hi) s rfl
  have mask : (a >>> lo) &&& ((1 <<< (hi - lo + 1)) - 1) = extractBits a lo hi := by
    rw [extractBits, Nat.one_shiftLeft]
  have field : extractBits a lo hi = fieldOf a lo (hi - lo + 1) := extractBits_eq a lo hi
  rw [mask, ← field]
  exact ⟨fun h => ⟨accepts (Nat.not_lt.mpr h), rfl, extractBits_lt a lo hi⟩, rejects⟩

/-- Settles O22, by the count of the 1 bits of the field. -/
theorem parityCountsOnesModuloTwo : Obligations.ParityCountsOnesModuloTwo := by
  intro s a lo hi _ _ hhi
  obtain ⟨accepts, rejects⟩ := exec_of_guard (i := .parity a lo hi) s rfl
  refine ⟨fun h => ?_, rejects⟩
  rw [← parityOfRange_eq a lo hi h hhi]
  exact accepts (Nat.not_lt.mpr h)

/-- Settles O19, by the two nibbles as quotient and remainder. -/
theorem bcdDecReturnsTensAndUnits : Obligations.BcdDecReturnsTensAndUnits := by
  intro s a _
  obtain ⟨accepts, rejects⟩ := exec_of_guard (i := .bcdDec a) s rfl
  refine ⟨fun h => ?_, rejects⟩
  rw [← bcdDecode_eq a (Nat.lt_succ_of_le h)]
  exact accepts (Nat.not_lt.mpr h)

/-- Settles O20: the two digits do not overlap, so `or` adds them. -/
theorem bcdEncReturnsPackedDigits : Obligations.BcdEncReturnsPackedDigits := by
  intro s a _
  obtain ⟨accepts, rejects⟩ := exec_of_guard (i := .bcdEnc a) s rfl
  refine ⟨fun h => ?_, rejects⟩
  rw [← bcdEncode_eq]
  exact accepts (Nat.not_lt.mpr h)

/-! ## The BCD laws -/

/-- Different 64-bit results are different responses. -/
theorem scalarResponse_inj {v w : Nat} (hv : v < 2 ^ 64) (hw : w < 2 ^ 64) :
    scalarResponse v = scalarResponse w ↔ v = w := by
  refine ⟨fun h => ?_, congrArg scalarResponse⟩
  have hr : (BitVec.ofNat 64 v).toNat = (BitVec.ofNat 64 w).toNat := congrArg (fun rsp => rsp.r.toNat) h
  rwa [BitVec.toNat_ofNat, BitVec.toNat_ofNat, Nat.mod_eq_of_lt hv, Nat.mod_eq_of_lt hw] at hr

/-- BCD_ENC answers the byte `b` for the number that `b` is the code of, and for no other (40_bitfield.md R104). -/
theorem exec_bcdEnc_scalar_iff (s : State) (n : Nat) {b : Nat} (hb : b ≤ 0xFF) :
    exec (.bcdEnc n) s = .next (answered s (scalarResponse b)) ↔ n ≤ 99 ∧ bcdEncode n = b := by
  rw [exec_answered_iff]
  change scalarResponse b = bcdEncResponse n ↔ _
  by_cases hn : n ≤ 99
  · have response : bcdEncResponse n = scalarResponse (bcdEncode n) := if_neg (Nat.not_lt.mpr hn)
    have byte := bcdEncode_lt n hn
    rw [response, scalarResponse_inj (by omega) (by omega), eq_comm]
    exact (and_iff_right hn).symm
  · have response : bcdEncResponse n = raiseArgument .value (copyOfA n) := if_pos (Nat.lt_of_not_le hn)
    have fails : (bcdEncResponse n).errKind ≠ 0 := response ▸ raise_errKind_ne_zero _ _ _ _
    exact ⟨fun h => absurd (h ▸ rfl) fails, fun h => absurd h.1 hn⟩

/-- Decoding undoes encoding on two-digit numbers (40_bitfield.md R105). -/
theorem bcdDecode_bcdEncode {n : Nat} (h : n ≤ 99) : bcdDecode (bcdEncode n) = n := by
  have byte := bcdEncode_lt n h
  rw [bcdDecode_eq _ (by omega), bcdEncode_eq]
  omega

/-- A byte decodes to at most 165, which is 0xFF's (40_bitfield.md R102). -/
theorem bcdDecode_le {b : Nat} (h : b ≤ 0xFF) : bcdDecode b ≤ 165 := by
  rw [bcdDecode_eq b (by omega)]
  omega

/-- A byte is the code of the number it decodes to exactly when both its nibbles are decimal digits (40_bitfield.md R105). -/
theorem nibbles_decimal_iff {b : Nat} (h : b ≤ 0xFF) :
    b / 16 ≤ 9 ∧ b % 16 ≤ 9 ↔ bcdDecode b ≤ 99 ∧ bcdEncode (bcdDecode b) = b := by
  rw [bcdEncode_eq, bcdDecode_eq b (by omega)]
  omega

/-- Settles O21: the laws of the two functions, on operands that neither operation rejects. -/
theorem bcdRoundTrips : Obligations.BcdRoundTrips := by
  have decodes (s : State) {b : Nat} (h : b ≤ 0xFF) :
      exec (.bcdDec b) s = .next (answered s (scalarResponse (bcdDecode b))) :=
    (exec_of_guard (i := .bcdDec b) s rfl).1 (Nat.not_lt.mpr h)
  refine ⟨fun s n h => ?_, fun s b h => ?_⟩
  · have byte : bcdEncode n ≤ 0xFF := by have := bcdEncode_lt n h; omega
    refine ⟨bcdEncode n, byte, (exec_bcdEnc_scalar_iff s n byte).mpr ⟨h, rfl⟩, ?_⟩
    rw [decodes s byte, bcdDecode_bcdEncode h]
  · exact ⟨bcdDecode b, bcdDecode_le h, decodes s h,
      (nibbles_decimal_iff h).trans (exec_bcdEnc_scalar_iff s _ h).symm⟩

/-! ## The parity laws -/

/-- Flipping bit `i` flips it and no other. -/
theorem testBit_flip (x i k : Nat) : (x ^^^ 2 ^ i).testBit k = (x.testBit k ^^ decide (i = k)) := by
  rw [Nat.testBit_xor, Nat.testBit_two_pow]

/-- A flipped bit is 1 less what it was. -/
theorem bitAt_flip_self (x i : Nat) : bitAt (x ^^^ 2 ^ i) i = 1 - bitAt x i := by
  unfold bitAt
  rw [testBit_flip]
  cases x.testBit i <;> simp

/-- The other bits are as they were. -/
theorem bitAt_flip_of_ne (x : Nat) {i k : Nat} (h : i ≠ k) : bitAt (x ^^^ 2 ^ i) k = bitAt x k := by
  rw [bitAt_eq_iff, testBit_flip, decide_eq_false h, Bool.xor_false]

/-- The count of 1 bits is the sum of the bits. -/
theorem onesIn_eq_sum (x lo hi : Nat) : onesIn x lo hi = ∑ k ∈ Finset.Icc lo hi, bitAt x k := by
  rw [onesIn, Finset.card_filter]
  exact Finset.sum_congr rfl fun k _ => by unfold bitAt; cases x.testBit k <;> rfl

/-- The count of a range is bit `i` of it and the sum of the others. -/
theorem onesIn_eq_add_sum_erase (x : Nat) {lo hi i : Nat} (hlo : lo ≤ i) (hhi : i ≤ hi) :
    onesIn x lo hi = bitAt x i + ∑ k ∈ (Finset.Icc lo hi).erase i, bitAt x k := by
  rw [onesIn_eq_sum, Finset.add_sum_erase _ _ (Finset.mem_Icc.mpr ⟨hlo, hhi⟩)]

/-- Flipping a bit of the range takes its old value out of the count and puts the other one in. -/
theorem onesIn_flip (x : Nat) {lo hi i : Nat} (hlo : lo ≤ i) (hhi : i ≤ hi) :
    onesIn (x ^^^ 2 ^ i) lo hi + bitAt x i = onesIn x lo hi + (1 - bitAt x i) := by
  have others : ∑ k ∈ (Finset.Icc lo hi).erase i, bitAt (x ^^^ 2 ^ i) k =
      ∑ k ∈ (Finset.Icc lo hi).erase i, bitAt x k :=
    Finset.sum_congr rfl fun k hk => bitAt_flip_of_ne x (Finset.ne_of_mem_erase hk).symm
  rw [onesIn_eq_add_sum_erase _ hlo hhi, onesIn_eq_add_sum_erase x hlo hhi, others, bitAt_flip_self]
  omega

/-- Flipping a bit outside the range leaves its count. -/
theorem onesIn_flip_outside (x : Nat) {lo hi i : Nat} (h : i < lo ∨ hi < i) :
    onesIn (x ^^^ 2 ^ i) lo hi = onesIn x lo hi :=
  onesIn_congr fun k hlo hhi => by rw [testBit_flip, decide_eq_false (by omega), Bool.xor_false]

/-- Flipping one bit of the range flips its parity (40_bitfield.md R107 (b)). -/
theorem parityOfRange_flip (x : Nat) {lo hi i : Nat} (hlo : lo ≤ i) (hhi : i ≤ hi) (h : hi < 64) :
    parityOfRange (x ^^^ 2 ^ i) lo hi = 1 - parityOfRange x lo hi := by
  have hle : lo ≤ hi := hlo.trans hhi
  have count := onesIn_flip x hlo hhi
  have bit := bitAt_le_one x i
  rw [parityOfRange_eq _ lo hi hle h, parityOfRange_eq x lo hi hle h]
  omega

/-- Settles O23: two flips are one flip twice, and a flip outside leaves the count. -/
theorem flippedBitsFlipParity : Obligations.FlippedBitsFlipParity := by
  intro x lo hi hle h
  refine ⟨?_, fun i hlo hhi => parityOfRange_flip x hlo hhi h, fun i j hlo hij hhi => ?_, fun i hout => ?_⟩
  · rw [parityOfRange_eq x lo hi hle h, Nat.odd_iff]
  · have parity : parityOfRange x lo hi ≤ 1 := parityOf_le_one _
    rw [parityOfRange_flip _ (hlo.trans hij.le) hhi h, parityOfRange_flip x hlo (hij.le.trans hhi) h]
    omega
  · rw [parityOfRange_eq _ lo hi hle h, parityOfRange_eq x lo hi hle h, onesIn_flip_outside x hout]

end Sys2Proof.Machine

/-! # The family 41_frame.md: FRAME_FROM_WORD, FRAME_FROM_STRING, BIT and RANGE

The two ideas. FRAME_FROM_WORD, BIT and RANGE test the word before anything else, so what follows is met by frames alone
(`answers_of_frameTest`). A string that is a word has its characters fixed by the word's bits, so of each length there is
one string for a word (`wordOfChars_eq_some_iff`). -/

namespace Sys2Proof.Machine

open Sys2Proof.Config

/-! ## The frame test -/

/-- A number has no 1 bit from position `n` up if it is below two to the `n`. -/
theorem testBit_eq_false_of_le {x n i : Nat} (hx : x < 2 ^ n) (hi : n ≤ i) : x.testBit i = false :=
  Nat.testBit_lt_two_pow (hx.trans_le (Nat.pow_le_pow_right two_pos hi))

/-- A 64-bit word is below two to the 60 exactly when its four top bits are 0 (41_frame.md R120). -/
theorem lt_two_pow_sixty_iff {a : Nat} (h : a < 2 ^ 64) :
    a < 2 ^ 60 ↔ ∀ i, 60 ≤ i → i ≤ 63 → a.testBit i = false := by
  refine ⟨fun frame i hi _ => testBit_eq_false_of_le frame hi, fun top => ?_⟩
  refine Nat.lt_pow_two_of_testBit a fun i hi => ?_
  by_cases hi' : i ≤ 63
  · exact top i hi hi'
  · exact testBit_eq_false_of_le h (by omega)

/-- An operation that tests its word first: how it answers for a frame, and that it gives STRUCTURAL 13 for any other word
(41_frame.md R121, R124, R125). -/
theorem answers_of_frameTest {i : Instr} {a : Nat} {onFrame : Response} (s : State)
    (h : responseOf i = if !isFrame a then raise .structural .frameWord .noDetail (copyOfA a) else onFrame) :
    (a < 2 ^ 60 → responseOf i = onFrame) ∧
    (2 ^ 60 ≤ a → exec i s = .next (answered s (errorResponse 1 13 0 (BitVec.ofNat 64 a)))) := by
  refine ⟨fun frame => ?_, fun noFrame => ?_⟩
  · rw [h, (isFrame_iff a).mpr frame]
    rfl
  · rw [exec_answered_iff, h, (isFrame_eq_false_iff a).mpr noFrame]
    exact (raise_eq .structural .frameWord .noDetail _).symm

/-- FRAME_FROM_WORD answers a frame itself (41_frame.md R121). -/
theorem exec_frameFromWord_of_lt (s : State) {a : Nat} (h : a < 2 ^ 60) :
    exec (.frameFromWord a) s = .next (answered s (scalarResponse a)) := by
  rw [exec_eq_answered, (answers_of_frameTest s rfl).1 h, returnScalar_eq]

/-- Settles O24, by the top bits of a frame. -/
theorem frameFromWordChecksTheTopBits : Obligations.FrameFromWordChecksTheTopBits := by
  intro s a ha
  refine ⟨fun top => exec_frameFromWord_of_lt s ((lt_two_pow_sixty_iff ha).mpr top), ?_⟩
  rintro ⟨i, hlo, hhi, set⟩
  refine (answers_of_frameTest s rfl).2 (Nat.le_of_not_lt fun frame => ?_)
  exact absurd set (Bool.eq_false_iff.mp ((lt_two_pow_sixty_iff ha).mp frame i hlo hhi))

/-! ## Accessors -/

/-- Settles O27: a frame passes to the index test, and no other word does. -/
theorem bitReadsOneFrameBit : Obligations.BitReadsOneFrameBit := by
  intro s a lo _ _
  obtain ⟨onFrame, onOther⟩ := answers_of_frameTest (i := .bit a lo) s rfl
  have bit : a / 2 ^ lo % 2 = bitAt a lo := (Nat.toNat_testBit a lo).symm
  rw [bit]
  exact ⟨fun frame hlo => (exec_of_guard s (onFrame frame)).1 (Nat.not_lt.mpr hlo),
    fun frame hlo => (exec_of_guard s (onFrame frame)).2 hlo, onOther⟩

/-- Settles O28, with the field as a quotient modulo its width. -/
theorem rangeReadsAFrameField : Obligations.RangeReadsAFrameField := by
  intro s a lo hi _ _ _
  obtain ⟨onFrame, onOther⟩ := answers_of_frameTest (i := .range a lo hi) s rfl
  have field : fieldOf a lo (hi - lo + 1) = extractBits a lo hi := (extractBits_eq a lo hi).symm
  rw [field]
  exact ⟨fun frame hle hhi => (exec_of_guard s (onFrame frame)).1 (by omega),
    fun frame outside => (exec_of_guard s (onFrame frame)).2 outside, onOther⟩

/-! ## Frame strings -/

/-- A full port of length 60 whose characters are a word's is answered with the word (41_frame.md R122). -/
theorem frameFromStringResponse_of_some {str : List Byte} {x : Nat} (hlen : str.length = 60)
    (h : wordOfChars str = some x) : frameFromStringResponse 60 str = scalarResponse x := by
  have whole : str.take frameBits = str := List.take_of_length_le hlen.le
  have length : ¬ 60 ≠ strFrameLen := not_not.mpr rfl
  rw [frameFromStringResponse, if_neg length, whole, h]
  exact returnScalar_eq x

/-- Another length, or characters that are no word's, is STRUCTURAL 14 with `err_word` 0 (41_frame.md R122). -/
theorem frameFromStringResponse_eq_error {sLen : Nat} {str : List Byte} (hlen : str.length = 60)
    (h : sLen ≠ 60 ∨ wordOfChars str = none) : frameFromStringResponse sLen str = errorResponse 1 14 0 0 := by
  have error : raise .structural .frameString .noDetail noWord = errorResponse 1 14 0 0 := raise_eq ..
  have whole : str.take frameBits = str := List.take_of_length_le hlen.le
  rw [frameFromStringResponse, whole, error]
  by_cases wrongLength : sLen ≠ strFrameLen
  · rw [if_pos wrongLength]
  · rw [if_neg wrongLength, h.resolve_left wrongLength]

/-- Settles O25: the length is tested, then a string is a word's exactly when each character is `'0'` or `'1'`. -/
theorem frameFromStringPlacesEachCharacter : Obligations.FrameFromStringPlacesEachCharacter := by
  intro s sLen str _ hlen
  refine ⟨?_, fun h => ?_⟩
  · rintro ⟨rfl, digits⟩
    cases hw : wordOfChars str with
    | none =>
      obtain ⟨c, hc, not0, not1⟩ := (wordOfChars_eq_none str).mp hw
      exact absurd (digits c hc) (not_or.mpr ⟨not0, not1⟩)
    | some x =>
      obtain ⟨hx, bits⟩ := wordOfChars_spec hw
      refine ⟨x, hlen ▸ hx, bits, (exec_answered_iff _ s _).mpr ?_⟩
      exact (frameFromStringResponse_of_some hlen hw).symm
  · rw [← wordOfChars_eq_none] at h
    exact (exec_answered_iff _ s _).mpr (frameFromStringResponse_eq_error hlen h).symm

/-- FRAME_FROM_STRING answers the word of the string and no other (41_frame.md R122). -/
theorem exec_frameFromString_scalar_iff (s : State) {str : List Byte} {x : Nat} (hlen : str.length = 60)
    (hx : x < 2 ^ 64) :
    exec (.frameFromString 60 str) s = .next (answered s (scalarResponse x)) ↔ wordOfChars str = some x := by
  rw [exec_answered_iff]
  change scalarResponse x = frameFromStringResponse 60 str ↔ _
  cases hw : wordOfChars str with
  | none =>
    have fails : (errorResponse 1 14 0 0).errKind ≠ 0 := by decide
    rw [frameFromStringResponse_eq_error hlen (.inr hw)]
    exact ⟨fun h => absurd (h ▸ rfl) fails, nofun⟩
  | some y =>
    have hy : y < 2 ^ 60 := hlen ▸ (wordOfChars_spec hw).1
    rw [frameFromStringResponse_of_some hlen hw, scalarResponse_inj hx (by omega), Option.some_inj, eq_comm]

/-- The `n` characters that stand for the low bits of a word (41_frame.md R123). -/
def charsOfWord (n x : Nat) : List Byte :=
  (List.range n).map fun i => if x.testBit i then charOne else charZero

@[simp] theorem length_charsOfWord (n x : Nat) : (charsOfWord n x).length = n := by simp [charsOfWord]

@[simp] theorem getElem_charsOfWord (n x i : Nat) (h : i < (charsOfWord n x).length) :
    (charsOfWord n x)[i] = if x.testBit i then charOne else charZero := by simp [charsOfWord]

/-- Character `i` of a word's string is `'1'` exactly when bit `i` of the word is 1, and the word has no bit beyond it. -/
theorem getElem?_charsOfWord_eq_one {n x : Nat} (hx : x < 2 ^ n) (i : Nat) :
    (charsOfWord n x)[i]? = some 0x31 ↔ x.testBit i = true := by
  by_cases hi : i < n
  · have hi' : i < (charsOfWord n x).length := by rwa [length_charsOfWord]
    rw [List.getElem?_eq_getElem hi', getElem_charsOfWord]
    cases x.testBit i <;> decide
  · have hi' : (charsOfWord n x).length ≤ i := by rw [length_charsOfWord]; omega
    rw [List.getElem?_eq_none hi', testBit_eq_false_of_le hx (Nat.le_of_not_lt hi)]
    exact ⟨nofun, nofun⟩

/-- A string made from a word's bits is some word's, for it has the characters `'0'` and `'1'` alone. -/
theorem wordOfChars_charsOfWord_ne_none (n x : Nat) : wordOfChars (charsOfWord n x) ≠ none := by
  intro h
  obtain ⟨c, hc, not0, not1⟩ := (wordOfChars_eq_none _).mp h
  obtain ⟨i, -, rfl⟩ := List.mem_map.mp hc
  cases hb : x.testBit i with
  | false => exact not0 (if_neg (Bool.eq_false_iff.mp hb))
  | true => exact not1 (if_pos hb)

/-- Each character of a word's string is that of the bit at its position: a character that is not `'1'` is `'0'`. -/
theorem eq_charsOfWord {str : List Byte} {x : Nat} (h : wordOfChars str = some x) :
    str = charsOfWord str.length x := by
  obtain ⟨-, bits⟩ := wordOfChars_spec h
  refine List.ext_getElem (length_charsOfWord _ _).symm fun i hi _ => ?_
  have set : x.testBit i = true ↔ str[i] = charOne := by
    rw [bits, List.getElem?_eq_getElem hi, Option.some_inj]
    rfl
  rw [getElem_charsOfWord]
  split
  case isTrue hb => exact set.mp hb
  case isFalse hb =>
    have digits : ¬ ∃ c ∈ str, c ≠ charZero ∧ c ≠ charOne := fun bad =>
      absurd ((wordOfChars_eq_none str).mpr bad) (h ▸ nofun)
    by_contra not0
    exact digits ⟨str[i], List.getElem_mem hi, not0, fun one => hb (set.mpr one)⟩

/-- Of the strings of `n` characters exactly one is a given word's, if the word has no bit from `n` up
(41_frame.md R123). -/
theorem wordOfChars_eq_some_iff {n x : Nat} (hx : x < 2 ^ n) (str : List Byte) :
    str.length = n ∧ wordOfChars str = some x ↔ str = charsOfWord n x := by
  constructor
  · rintro ⟨rfl, h⟩
    exact eq_charsOfWord h
  · rintro rfl
    refine ⟨length_charsOfWord n x, ?_⟩
    obtain ⟨y, hy⟩ := Option.ne_none_iff_exists'.mp (wordOfChars_charsOfWord_ne_none n x)
    obtain ⟨-, bits⟩ := wordOfChars_spec hy
    have same : y = x := Nat.eq_of_testBit_eq fun i =>
      Bool.eq_iff_iff.mpr ((bits i).trans (getElem?_charsOfWord_eq_one hx i))
    rwa [same] at hy

/-- Settles O26: the answer to a string is its word, and `charsOfWord` is the one string of a frame. -/
theorem stringsAndFramesCorrespond : Obligations.StringsAndFramesCorrespond := by
  refine ⟨fun s str x hlen hx h => ?_, fun s x hx => ⟨charsOfWord 60 x, ?_, ?_⟩⟩
  · obtain ⟨frame, bits⟩ := wordOfChars_spec ((exec_frameFromString_scalar_iff s hlen hx).mp h)
    exact ⟨exec_frameFromWord_of_lt s (hlen ▸ frame), fun i _ => (bits i).symm⟩
  · obtain ⟨hlen, word⟩ := (wordOfChars_eq_some_iff hx _).mpr rfl
    exact ⟨hlen, (exec_frameFromString_scalar_iff s hlen (by omega)).mpr word⟩
  · rintro str ⟨hlen, h⟩
    exact (wordOfChars_eq_some_iff hx str).mp ⟨hlen, (exec_frameFromString_scalar_iff s hlen (by omega)).mp h⟩

end Sys2Proof.Machine

/-! # The family 42_calendar_zone.md: last Sundays, summer time, transitions, announcement and cutoff

The two ideas. Each year holds its own two transitions and no others, so the year of an instant, which is all the zone
functions look at, is the right one to look at (`civilOf_year_eq`, `summer_in_year`). `TZ_CUTOFF` takes answers away and
changes none, so each zone function is its value without a cutoff, or none (`offsetAt_some_cutoff`, `nextTransition_eq`). -/

namespace Sys2Proof.Machine

open Sys2Proof.Config

/-! ## Last Sundays -/

theorem weekdayOf_lastSunday (year month : Int) : weekdayOf year month (lastSunday year month) = 7 := by
  rw [lastSunday_eq, Int.sub_eq_add_neg, weekdayOf_day]
  omega

theorem lastSunday_le (year month : Int) : lastSunday year month ≤ daysInMonth year month := by
  rw [lastSunday_eq]
  omega

/-- Weekdays repeat after seven days, so a Sunday of the month is not after the one found from the month's end. -/
theorem le_lastSunday {year month day : Int} (hday : day ≤ daysInMonth year month)
    (sunday : weekdayOf year month day = 7) : day ≤ lastSunday year month := by
  have fromEnd := weekdayOf_day year month (daysInMonth year month) (day - daysInMonth year month)
  rw [add_sub_cancel, sunday] at fromEnd
  rw [lastSunday_eq]
  omega

/-- The last Sunday is one of the last seven days, so it is a day of the month. -/
theorem one_le_lastSunday (year month : Int) : 1 ≤ lastSunday year month := by
  have length := (daysInMonth_bounds year month).1
  rw [lastSunday_eq]
  omega

/-- Settles O33, by the weekday of the month's last day. -/
theorem lastSundayIsTheLargestSunday : Obligations.LastSundayIsTheLargestSunday :=
  ⟨fun year month _ _ =>
    ⟨lastSunday_le year month, weekdayOf_lastSunday year month, fun _ => le_lastSunday⟩,
    by decide⟩

/-! ## Years -/

/-- A date lies between 1 January of its year and 1 January of the next. Months are counted from March, so January and
February are compared with the first bound and the other months with the second (42_calendar_zone.md R141). -/
theorem daysFromCivil_in_year {year month day : Int} (hm : 1 ≤ month ∧ month ≤ 12) (hd : 1 ≤ day ∧ day ≤ 31) :
    daysFromCivil year 1 1 ≤ daysFromCivil year month day ∧
      daysFromCivil year month day < daysFromCivil (year + 1) 1 1 := by
  have next := daysFromCivil_january year
  by_cases early : month ≤ 2
  · have count : daysFromCivil year month day = daysFromCivil year 1 1 + 31 * (month - 1) + (day - 1) := by
      simp only [daysFromCivil_eq _ _ _ _ rfl, boolInt, early]
      norm_num
      omega
    split at next <;> omega
  · have count : daysFromCivil year month day =
        daysFromCivil (year + 1) 1 1 - 306 + (153 * (month - 3) + 2) / 5 + (day - 1) := by
      simp only [daysFromCivil_eq _ _ _ _ rfl, boolInt, early]
      norm_num
      omega
    split at next <;> omega

/-- The instant at which a year begins, in UTC. -/
def yearStart (year : Int) : Int := daysFromCivil year 1 1 * 1440

theorem yearStart_succ (year : Int) : yearStart year + 365 * 1440 ≤ yearStart (year + 1) := by
  have next := daysFromCivil_january year
  unfold yearStart
  split at next <;> omega

theorem yearStart_strictMono : StrictMono yearStart :=
  strictMono_int_of_lt_succ fun year => by
    have longYear := yearStart_succ year
    omega

/-- The year of an instant is the one that has begun and whose successor has not. -/
theorem civilOf_year_bounds (t : Int) :
    yearStart (civilOf t).year ≤ t ∧ t < yearStart ((civilOf t).year + 1) := by
  obtain ⟨hm, ⟨hd, hlen⟩, count⟩ := civilFromDays_spec (t / 1440)
  have length := (daysInMonth_bounds (civilFromDays (t / 1440)).1 (civilFromDays (t / 1440)).2.1).2
  have bounds := daysFromCivil_in_year (year := (civilFromDays (t / 1440)).1) hm ⟨hd, hlen.trans length⟩
  rw [count] at bounds
  change daysFromCivil (civilFromDays (t / 1440)).1 1 1 * 1440 ≤ t ∧
    t < daysFromCivil ((civilFromDays (t / 1440)).1 + 1) 1 1 * 1440
  omega

theorem civilOf_year_eq {year t : Int} (begun : yearStart year ≤ t) (notOver : t < yearStart (year + 1)) :
    (civilOf t).year = year := by
  obtain ⟨lo, hi⟩ := civilOf_year_bounds t
  have notAfter := yearStart_strictMono.lt_iff_lt.mp (lo.trans_lt notOver)
  have notBefore := yearStart_strictMono.lt_iff_lt.mp (begun.trans_lt hi)
  omega

/-- A valid civil datetime is that of its own minute count, because its date is the only one with its day count
(42_calendar_zone.md R142). -/
theorem civilOf_minutesOf {c : Civil} (h : validCivil c = true) : civilOf (minutesOf c) = c := by
  obtain ⟨hm, hd, hh, hmin⟩ := (validCivil_iff c).mp h
  have days : minutesOf c / 1440 = daysFromCivil c.year c.month c.day := by unfold minutesOf; omega
  have rest : minutesOf c % 1440 = c.hour * 60 + c.minute := by unfold minutesOf; omega
  obtain ⟨hm', hd', count⟩ := civilFromDays_spec (daysFromCivil c.year c.month c.day)
  obtain ⟨year, month, day⟩ := daysFromCivil_injective hm' hd' hm hd count
  have hour : (c.hour * 60 + c.minute) / 60 = c.hour := by omega
  have minute : minutesOf c % 60 = c.minute := by unfold minutesOf; omega
  rw [civilOf, days, rest, year, month, day, hour, minute]

/-! ## Summer time -/

/-- Every minute of a month's last Sunday, in UTC or in local time. -/
theorem civilOf_lastSunday {year month hour minute : Int} (hm : 1 ≤ month ∧ month ≤ 12) (hh : 0 ≤ hour ∧ hour ≤ 23)
    (hmin : 0 ≤ minute ∧ minute ≤ 59) :
    civilOf (minutesOf { year, month, day := lastSunday year month, hour, minute }) =
      { year, month, day := lastSunday year month, hour, minute } :=
  civilOf_minutesOf ((validCivil_iff _).mpr
    ⟨hm, ⟨one_le_lastSunday year month, lastSunday_le year month⟩, hh, hmin⟩)

/-- The two transitions of a year, in their order, lie inside the year (42_calendar_zone.md R150). -/
theorem summer_in_year (year : Int) :
    yearStart year < hardware.zone.summerStart year ∧
      hardware.zone.summerStart year < hardware.zone.summerEnd year ∧
      hardware.zone.summerEnd year < yearStart (year + 1) := by
  have start := summerStart_bounds year
  have stop := summerEnd_bounds year
  have next := yearStart_succ year
  unfold yearStart at next ⊢
  omega

/-- A cutoff takes the offset away from `c` on and leaves it as it is before (42_calendar_zone.md R152). -/
theorem offsetAt_some_cutoff (zone : Zone) (c t : Int) :
    offsetAt { zone, cutoff := some c } t = if c ≤ t then none else offsetAt { zone, cutoff := none } t := by
  simp [offsetAt, atOrAfterCutoff]

/-- Settles O34: a summer time lies inside its year, which is the year the offset is read from. -/
theorem summerTimeRunsFromMarchToOctober : Obligations.SummerTimeRunsFromMarchToOctober := by
  refine ⟨?_, fun t outside => ?_, fun year => ⟨?_, ?_⟩, offsetAt_some_cutoff hardware.zone⟩
  · rintro t ⟨year, started, notEnded⟩
    obtain ⟨afterBegin, -, beforeNext⟩ := summer_in_year year
    have inYear : (civilOf t).year = year :=
      civilOf_year_eq (afterBegin.le.trans started) (notEnded.trans beforeNext)
    rw [offsetAt_hardware, inYear, if_pos ⟨started, notEnded⟩]
  · rw [offsetAt_hardware, if_neg]
    rintro ⟨started, notEnded⟩
    exact (outside _).elim started.not_gt notEnded.not_ge
  · exact civilOf_lastSunday (by decide) (by decide) (by decide)
  · exact civilOf_lastSunday (by decide) (by decide) (by decide)

/-! ## The next transition -/

/-- The zone's transition that `next_transition` looks at before it looks at the cutoff (42_calendar_zone.md R153). -/
def transitionAfter (zone : Zone) (t : Int) : Int :=
  if t < zone.summerStart (civilOf t).year then zone.summerStart (civilOf t).year
  else if t < zone.summerEnd (civilOf t).year then zone.summerEnd (civilOf t).year
  else zone.summerStart ((civilOf t).year + 1)

theorem nextTransition_eq (P : Params) (t : Int) :
    nextTransition P t = if atOrAfterCutoff P (transitionAfter P.zone t) then none else some (transitionAfter P.zone t) :=
  rfl

theorem nextTransition_no_cutoff (zone : Zone) (t : Int) :
    nextTransition { zone, cutoff := none } t = some (transitionAfter zone t) := rfl

theorem nextTransition_some_cutoff (zone : Zone) (c t : Int) :
    nextTransition { zone, cutoff := some c } t =
      if c ≤ transitionAfter zone t then none else some (transitionAfter zone t) := by
  simp only [nextTransition_eq, atOrAfterCutoff, decide_eq_true_eq]

theorem summerStart_strictMono : StrictMono hardware.zone.summerStart :=
  strictMono_int_of_lt_succ fun year => by
    have thisYear := summer_in_year year
    have nextYear := summer_in_year (year + 1)
    omega

theorem isTransition_transitionAfter (t : Int) : IsTransition hardware (transitionAfter hardware.zone t) := by
  unfold transitionAfter
  split
  · exact ⟨_, .inl rfl⟩
  · split
    · exact ⟨_, .inr rfl⟩
    · exact ⟨_, .inl rfl⟩

/-- The transition looked at is after the instant: the next year, whose summer time is the last choice, has not begun. -/
theorem lt_transitionAfter (t : Int) : t < transitionAfter hardware.zone t := by
  have notOver := (civilOf_year_bounds t).2
  have nextStart := (summer_in_year ((civilOf t).year + 1)).1
  unfold transitionAfter
  split
  · assumption
  · split
    · assumption
    · exact notOver.trans nextStart

/-- The last choice, the next year's beginning of summer time, is also the latest. -/
theorem transitionAfter_le_summerStart_succ (t : Int) :
    transitionAfter hardware.zone t ≤ hardware.zone.summerStart ((civilOf t).year + 1) := by
  have ofYear := summer_in_year (civilOf t).year
  have nextStart := summer_in_year ((civilOf t).year + 1)
  unfold transitionAfter
  split
  · omega
  · split <;> omega

/-- No transition lies between an instant and the one looked at: those of earlier years have passed, those of the
instant's year are tested in their order, and those of later years are not before the next year's summer time. -/
theorem transitionAfter_le {t m : Int} (hm : IsTransition hardware m) (later : t < m) :
    transitionAfter hardware.zone t ≤ m := by
  obtain ⟨year, hm⟩ := hm
  obtain ⟨-, ordered, beforeNext⟩ := summer_in_year year
  rcases lt_trichotomy year (civilOf t).year with earlier | rfl | after
  · have begun := (civilOf_year_bounds t).1
    have passed := yearStart_strictMono.monotone (Int.add_one_le_of_lt earlier)
    omega
  · unfold transitionAfter
    split
    · omega
    · split <;> omega
  · have latest := transitionAfter_le_summerStart_succ t
    have notSooner := summerStart_strictMono.monotone (Int.add_one_le_of_lt after)
    omega

/-- Settles O35: the transition of the hardware's zone that is looked at is the least one after the instant. -/
theorem nextTransitionIsTheEarliestAfter : Obligations.NextTransitionIsTheEarliestAfter := by
  intro cutoff t
  refine ⟨transitionAfter hardware.zone t, lt_transitionAfter t, isTransition_transitionAfter t,
    fun _ => transitionAfter_le, ?_⟩
  cases cutoff with
  | none => exact nextTransition_no_cutoff hardware.zone t
  | some c => exact nextTransition_some_cutoff hardware.zone c t

/-! ## The announcement -/

theorem announce_eq (P : Params) (t : Int) :
    announce P t = (nextTransition P t).map fun n => decide (n - t ≤ 60) := by
  unfold announce
  cases nextTransition P t <;> rfl

theorem announce_hardware (t : Int) :
    announce hardware t = some (decide (transitionAfter hardware.zone t - t ≤ 60)) := rfl

/-- The announcement is true in the window of some transition and no other: the next transition is the nearest. -/
theorem transitionAfter_near_iff (t : Int) :
    transitionAfter hardware.zone t - t ≤ 60 ↔ ∃ n, IsTransition hardware n ∧ n - 60 ≤ t ∧ t ≤ n - 1 := by
  constructor
  · intro near
    have later := lt_transitionAfter t
    exact ⟨_, isTransition_transitionAfter t, by omega, by omega⟩
  · rintro ⟨n, hn, opened, notOver⟩
    have nearest := transitionAfter_le hn (t := t) (by omega)
    omega

/-- Settles O36, by the next transition being the nearest one. -/
theorem announcementMarksTheHourBeforeATransition : Obligations.AnnouncementMarksTheHourBeforeATransition := by
  refine ⟨announce_eq, fun t => ⟨fun window => ?_, fun outside => ?_⟩, fun year k hk0 hk => ⟨?_, ?_⟩⟩
  · rw [announce_hardware, decide_eq_true ((transitionAfter_near_iff t).mpr window)]
  · rw [announce_hardware, decide_eq_false]
    rw [transitionAfter_near_iff]
    rintro ⟨n, hn, opened, notOver⟩
    exact (outside n hn).elim opened.not_gt notOver.not_gt
  · have minute : hardware.zone.summerStart year - 60 + k + 60 =
        minutesOf { year, month := 3, day := lastSunday year 3, hour := 1, minute := k } := by
      simp only [hardware, centralEuropean, minutesOf]
      ring
    rw [minute, civilOf_lastSunday (by decide) (by decide) (by omega)]
  · have minute : hardware.zone.summerEnd year - 60 + k + 120 =
        minutesOf { year, month := 10, day := lastSunday year 10, hour := 2, minute := k } := by
      simp only [hardware, centralEuropean, minutesOf]
      ring
    rw [minute, civilOf_lastSunday (by decide) (by decide) (by omega)]

/-! ## The cutoff -/

theorem offsetAt_no_cutoff_isSome (zone : Zone) (t : Int) :
    (offsetAt { zone, cutoff := none } t).isSome = true := by
  simp only [offsetAt, atOrAfterCutoff, Bool.false_eq_true, if_false]
  split <;> rfl

/-- Settles O38: a cutoff takes away what lies at or after it and nothing else. -/
theorem nothingIsDefinedAtOrAfterTheCutoff : Obligations.NothingIsDefinedAtOrAfterTheCutoff := by
  intro zone t
  have defined := offsetAt_no_cutoff_isSome zone t
  refine ⟨⟨defined, rfl⟩, fun c => ⟨?_, fun n hn => ?_, fun n hn => ?_⟩⟩
  · rw [offsetAt_some_cutoff]
    by_cases late : c ≤ t
    · rw [if_pos late]
      exact iff_of_true rfl late
    · rw [if_neg late]
      exact iff_of_false (Option.isSome_iff_ne_none.mp defined) late
  · rw [nextTransition_some_cutoff] at hn
    split at hn
    case isTrue => cases hn
    case isFalse early =>
      cases hn
      omega
  · cases hn
    rw [nextTransition_some_cutoff]
    split
    case isTrue late => exact iff_of_true rfl late
    case isFalse early => exact iff_of_false nofun early

end Sys2Proof.Machine

/-! # The family 43_decoder.md: DECODE and its ordered checks

The one idea. DECODE runs its checks one after another, and each is a test whose failure is that check's error
(`checksAnswer_cons`). So its response is fixed by the first check that a word fails, or by there being none
(`decodeResponse_eq`). -/

namespace Sys2Proof.Machine

open Sys2Proof.Config

/-! ## The answer to a list of checks -/

/-- The error of check `k` for the word `x` (30_encoding.md R81). -/
def checkFailure (x k : Nat) : Response :=
  errorResponse (checkError k).1 (checkError k).2 0 (BitVec.ofNat 64 x)

/-- What checks run in the order of the list `ks` answer for the word `x`: the error of the first one violated, or the
frame's datetime (43_decoder.md R171, R184). -/
def checksAnswer (P : Params) (x : Nat) (ks : List Nat) : Response :=
  match ks.find? fun k => !passes P x k with
  | some k => checkFailure x k
  | none => datetimeResponse (frameCivil x) (x.testBit 17)

theorem checksAnswer_nil (P : Params) (x : Nat) :
    checksAnswer P x [] = datetimeResponse (frameCivil x) (x.testBit 17) := rfl

theorem checksAnswer_cons_of_fails {P : Params} {x k : Nat} {ks : List Nat} (h : passes P x k = false) :
    checksAnswer P x (k :: ks) = checkFailure x k := by
  simp [checksAnswer, h]

theorem checksAnswer_cons_of_passes {P : Params} {x k : Nat} {ks : List Nat} (h : passes P x k = true) :
    checksAnswer P x (k :: ks) = checksAnswer P x ks := by
  simp [checksAnswer, h]

/-- A test whose failure is the error of check `k`, before the rest of the checks. -/
theorem checksAnswer_cons {P : Params} {x : Nat} (k : Nat) {ks : List Nat} {failed : Prop} [Decidable failed]
    {rsp : Response} (h : failed ↔ passes P x k = false) (rest : ¬ failed → rsp = checksAnswer P x ks) :
    (if failed then checkFailure x k else rsp) = checksAnswer P x (k :: ks) := by
  split
  case isTrue fails => exact (checksAnswer_cons_of_fails (h.mp fails)).symm
  case isFalse holds =>
    rw [rest holds, checksAnswer_cons_of_passes]
    simpa [h] using holds

/-! ## DECODE as such a list -/

/-- The datetime fields of the response are those the frame's digits write (43_decoder.md R184). -/
theorem returnDatetime_frameFields (x : Nat) (cest : Bool) :
    returnDatetime (frameFields x).year (frameFields x).month (frameFields x).day (frameFields x).hour
      (frameFields x).minute cest = datetimeResponse (frameCivil x) cest := by
  rw [← frameFields_civil]
  rfl

/-- An offset equal to the one the flags claim is +120 exactly when bit 17 is set (43_decoder.md R182). -/
theorem claimedOffset_beq_cestOffset (x : Nat) : (claimedOffset x == cestOffset) = x.testBit 17 := by
  rw [claimedOffset_eq, flagOffset]
  cases x.testBit 17 <;> rfl

/-- Checks 10 to 12 and the result, at the instant and offset that `zone_local` answers. -/
theorem decodeZoned_eq {P : Params} {x : Nat} {t o : Int}
    (hz : zoneLocal P (frameCivil x) (bitAt x 17 == 1) = some (t, o)) :
    decodeZoned P x t o = checksAnswer P x [10, 11, 12] := by
  refine checksAnswer_cons 10 (by simp [passes]) fun _ => ?_
  refine checksAnswer_cons 11 (by simp [passes, hz]) fun claimed => ?_
  refine checksAnswer_cons 12 (by simp [passes, hz]) fun _ => ?_
  rw [returnDatetime_frameFields, not_not.mp claimed, claimedOffset_beq_cestOffset, checksAnswer_nil]

/-- Check 9, which an invalid datetime and a nonexistent local time both violate, and what follows it. -/
theorem decodeDatetime_eq (P : Params) (x : Nat) : decodeDatetime P x = checksAnswer P x [9, 10, 11, 12] := by
  simp only [decodeDatetime, frameFields_civil]
  cases hvalid : validCivil (frameCivil x) with
  | false =>
    have fails : passes P x 9 = false := by simp [passes, hvalid]
    exact (checksAnswer_cons_of_fails fails).symm
  | true =>
    cases hz : zoneLocal P (frameCivil x) (bitAt x 17 == 1) with
    | none =>
      have fails : passes P x 9 = false := by simp [passes, hz]
      exact (checksAnswer_cons_of_fails fails).symm
    | some z =>
      have holds : passes P x 9 = true := by simp [passes, hvalid, hz]
      rw [checksAnswer_cons_of_passes holds]
      exact decodeZoned_eq hz

/-- DECODE answers as its checks 0 to 12 do in their order. Check 6 has no test in the machine, for it cannot fail
(43_decoder.md R170, R177). -/
theorem decodeResponse_eq (P : Params) (x : Nat) : decodeResponse P x = checksAnswer P x (List.range 13) := by
  refine checksAnswer_cons 0 (by simp [passes]) fun _ => ?_
  refine checksAnswer_cons 1 (by simp [passes]) fun _ => ?_
  refine checksAnswer_cons 2 (by simp [passes]) fun _ => ?_
  refine checksAnswer_cons 3 (by simp [passes]) fun _ => ?_
  refine checksAnswer_cons 4 (by simp [passes]) fun _ => ?_
  refine checksAnswer_cons 5 (by simp [passes]) fun _ => ?_
  refine Eq.trans ?_ (checksAnswer_cons_of_passes (k := 6) rfl).symm
  refine checksAnswer_cons 7 (by simp [passes]) fun _ => ?_
  refine checksAnswer_cons 8 (by simp [passes]) fun _ => ?_
  exact decodeDatetime_eq P x

/-! ## The first violated check, or none -/

/-- The first violated check is the only error reported (43_decoder.md R171). -/
theorem decodeResponse_of_first_violated {P : Params} {x k : Nat} (hk : k ≤ 12)
    (earlier : ∀ j < k, CheckHolds P x j) (violated : ¬ CheckHolds P x k) :
    decodeResponse P x = checkFailure x k := by
  simp only [checkHolds_iff] at earlier violated
  have first : ((List.range 13).find? fun j => !passes P x j) = some k := by
    simpa [Nat.lt_succ_of_le hk] using And.intro (Bool.eq_false_iff.mpr violated) earlier
  rw [decodeResponse_eq, checksAnswer, first]

/-- A word that violates no check decodes to its datetime (43_decoder.md R184). -/
theorem decodeResponse_of_checks {P : Params} {x : Nat} (hold : ∀ k ≤ 12, CheckHolds P x k) :
    decodeResponse P x = datetimeResponse (frameCivil x) (x.testBit 17) := by
  simp only [checkHolds_iff] at hold
  have noneViolated : ((List.range 13).find? fun j => !passes P x j) = none := by
    simpa using fun j hj => hold j (Nat.le_of_lt_succ hj)
  rw [decodeResponse_eq, checksAnswer, noneViolated]

/-- Settles O39, by the first violated check of the list. -/
theorem decodeReportsTheFirstViolatedCheck : Obligations.DecodeReportsTheFirstViolatedCheck := fun x _ _ hk =>
  ⟨fun earlier violated s =>
    (exec_answered_iff (.decode x) s _).mpr (decodeResponse_of_first_violated hk earlier violated).symm,
    fun _ => decodeResponse_of_first_violated hk⟩

/-- The year field is one BCD byte, and the century is fixed (43_decoder.md R177). -/
theorem frameCivil_year_bounds (x : Nat) : 2000 ≤ (frameCivil x).year ∧ (frameCivil x).year ≤ 2165 := by
  have byte : bcdDecode (extractBits x 50 57) ≤ 165 := bcdDecode_le (Nat.le_of_lt_succ (extractBits_lt x 50 57))
  rw [bcdDecode_field x 50 57 (by decide)] at byte
  have year : (frameCivil x).year = (digitsOf (fieldOf x 50 (57 - 50 + 1)) + 2000 : Nat) := rfl
  omega

/-- Settles O40: a word that passes has no violated check in the list, and check 11 ties its offset to bit 17. -/
theorem decodeReturnsTheDatetime : Obligations.DecodeReturnsTheDatetime := fun x _ =>
  ⟨frameCivil_year_bounds x,
    fun hold s => (exec_answered_iff (.decode x) s _).mpr (decodeResponse_of_checks hold).symm,
    fun _ => decodeResponse_of_checks⟩

end Sys2Proof.Machine

/-! # The family 44_encoder.md: ENCODE and ENCODE_LOCAL

The two ideas. A frame is put together in two stages, each with its own lemma: the fields leave the places of the three
parity bits 0 (`holdsFields_putDatetime`), and the parity bits fill those places and change nothing else
(`holdsFrame_putParity`). So the frame of every instant holds its local datetime (`holdsFrame_frameAt`), and what is left
of either operation is which instant, if any, it takes the frame of. -/

namespace Sys2Proof.Machine

open Sys2Proof.Config

/-! ## Before the parity bits: the fields -/

/-- A word that holds the six fields of `c` above the flags `flags`, and 0 in the places of the parity bits
(44_encoder.md R201). -/
structure HoldsFields (z flags : Nat) (c : Civil) : Prop where
  flags : z % 2 ^ 21 = flags
  minute : fieldOf z 21 7 = bcdEncode c.minute.toNat
  minutesParity : z.testBit 28 = false
  hour : fieldOf z 29 6 = bcdEncode c.hour.toNat
  hoursParity : z.testBit 35 = false
  day : fieldOf z 36 6 = bcdEncode c.day.toNat
  weekday : fieldOf z 42 3 = bcdEncode (weekdayOf c.year c.month c.day).toNat
  month : fieldOf z 45 5 = bcdEncode c.month.toNat
  year : fieldOf z 50 8 = bcdEncode (c.year % 100).toNat
  belowDateParity : z < 2 ^ 58

/-- Each BCD field of a valid datetime fits its place, so the fields do not touch (44_encoder.md R201). -/
theorem holdsFields_putDatetime {flags : Nat} {c : Civil} (hflags : flags < 2 ^ 21) (hc : validCivil c = true) :
    HoldsFields (putDatetime flags c) flags c := by
  obtain ⟨hmonth, hday, hhour, hminute⟩ := (validCivil_iff c).mp hc
  have longest := (daysInMonth_bounds c.year c.month).2
  have hweekday := weekdayOf_bounds c.year c.month c.day
  have minute : bcdEncode c.minute.toNat < 2 ^ 7 := by rw [bcdEncode_eq]; omega
  have hour : bcdEncode c.hour.toNat < 2 ^ 6 := by rw [bcdEncode_eq]; omega
  have day : bcdEncode c.day.toNat < 2 ^ 6 := by rw [bcdEncode_eq]; omega
  have weekday : bcdEncode (weekdayOf c.year c.month c.day).toNat < 2 ^ 3 := by rw [bcdEncode_eq]; omega
  have month : bcdEncode c.month.toNat < 2 ^ 5 := by rw [bcdEncode_eq]; omega
  have year : bcdEncode (c.year % 100).toNat < 2 ^ 8 := by rw [bcdEncode_eq]; omega
  have sum : putDatetime flags c = _ := putFields_eq (y := bcdEncode (c.year % 100).toNat) hflags minute hour day
    weekday month
  constructor
  case flags => omega
  case belowDateParity => omega
  all_goals
    simp only [fieldOf, Nat.testBit_eq_decide_div_mod_eq, decide_eq_false_iff_not]
    omega

/-! ## The parity bits -/

/-- The parity bits change no field that holds none of their places. -/
theorem extractBits_putParity (z : Nat) {lo hi : Nat} (h : lo ≤ hi) (outside : ∀ k ∈ [28, 35, 58], k < lo ∨ hi < k) :
    extractBits (putParity z) lo hi = extractBits z lo hi := by
  have bit (lo hi : Nat) : parityOfRange z lo hi ≤ 1 := parityOf_le_one _
  rw [putParity_eq, extractBits_or_bit _ (bit 36 57) (outside 58 (by decide)) h,
    extractBits_or_bit _ (bit 29 34) (outside 35 (by decide)) h,
    extractBits_or_bit _ (bit 21 27) (outside 28 (by decide)) h]

theorem fieldOf_putParity (z lo : Nat) {width : Nat} (h : 0 < width)
    (outside : ∀ k ∈ [28, 35, 58], k < lo ∨ lo + width - 1 < k) : fieldOf (putParity z) lo width = fieldOf z lo width := by
  have field (x : Nat) : fieldOf x lo width = extractBits x lo (lo + width - 1) := by
    rw [extractBits_eq, show lo + width - 1 - lo + 1 = width by omega, fieldOf]
  rw [field, field, extractBits_putParity z (by omega) outside]

theorem testBit_putParity_of_ne (z : Nat) {i : Nat} (h28 : i ≠ 28) (h35 : i ≠ 35) (h58 : i ≠ 58) :
    (putParity z).testBit i = z.testBit i := by
  simp [testBit_putParity, h28, h35, h58]

/-- A parity bit put above its range makes the group of both even (30_encoding.md R72). -/
theorem even_onesIn_putParity {z lo hi : Nat} (h : lo ≤ hi) (h' : hi < 64)
    (outside : ∀ k ∈ [28, 35, 58], k < lo ∨ hi < k)
    (bit : (putParity z).testBit (hi + 1) = decide (parityOfRange z lo hi = 1)) :
    Even (onesIn (putParity z) lo (hi + 1)) := by
  have unchanged : parityOfRange (putParity z) lo hi = parityOfRange z lo hi := by
    rw [parityOfRange, extractBits_putParity z h outside, parityOfRange]
  rw [← parity_matches_iff (putParity z) lo hi h h', unchanged, bitAt, bit]
  have parity : parityOfRange z lo hi ≤ 1 := parityOf_le_one _
  rcases Nat.le_one_iff_eq_zero_or_eq_one.mp parity with even | odd
  · rw [even]; rfl
  · rw [odd]; rfl

/-- The flags (44_encoder.md R201), and 0 in the other bits below the fields. -/
theorem testBit_frameFlags (announced summer : Bool) :
    (frameFlags announced summer).testBit 16 = announced ∧ (frameFlags announced summer).testBit 17 = summer ∧
      (frameFlags announced summer).testBit 18 = !summer ∧ (frameFlags announced summer).testBit 20 = true ∧
      ∀ i < 21, i ≤ 15 ∨ i = 19 → (frameFlags announced summer).testBit i = false := by
  cases announced <;> cases summer <;> decide

/-- The packed BCD of a number that is not negative, in integers (40_bitfield.md R104). -/
theorem bcdEncode_toNat {n : Int} (h : 0 ≤ n) : (bcdEncode n.toNat : Int) = n / 10 * 16 + n % 10 := by
  rw [bcdEncode_eq]
  omega

/-- The parity bits complete the fields to the frame (30_encoding.md R72, 44_encoder.md R201). -/
theorem holdsFrame_putParity {z : Nat} {c : Civil} {announced summer : Bool} (hc : validCivil c = true)
    (hz : HoldsFields z (frameFlags announced summer) c) : HoldsFrame (putParity z) c summer announced := by
  obtain ⟨hmonth, hday, hhour, hminute⟩ := (validCivil_iff c).mp hc
  have hweekday := weekdayOf_bounds c.year c.month c.day
  obtain ⟨announcement, cest, cet, start, unused⟩ := testBit_frameFlags announced summer
  have low : ∀ i < 21, (putParity z).testBit i = (frameFlags announced summer).testBit i := fun i hi => by
    rw [testBit_putParity_of_ne z (by omega) (by omega) (by omega), ← hz.flags, Nat.testBit_mod_two_pow,
      decide_eq_true hi, Bool.true_and]
  have high : ∀ i, 58 ≤ i → z.testBit i = false := fun i hi => testBit_eq_false_of_le hz.belowDateParity hi
  constructor
  case minute => rw [fieldOf_putParity z 21 (by decide) (by decide), hz.minute, bcdEncode_toNat hminute.1]
  case hour => rw [fieldOf_putParity z 29 (by decide) (by decide), hz.hour, bcdEncode_toNat hhour.1]
  case day => rw [fieldOf_putParity z 36 (by decide) (by decide), hz.day, bcdEncode_toNat (by omega)]
  case weekday =>
    rw [fieldOf_putParity z 42 (by decide) (by decide), hz.weekday, bcdEncode_toNat (by omega)]
    omega
  case month => rw [fieldOf_putParity z 45 (by decide) (by decide), hz.month, bcdEncode_toNat (by omega)]
  case year =>
    rw [fieldOf_putParity z 50 (by decide) (by decide), hz.year, bcdEncode_toNat (by omega)]
    omega
  case announcement => rw [low 16 (by decide), announcement]
  case cest => rw [low 17 (by decide), cest]
  case cet => rw [low 18 (by decide), cet]
  case startOfTime => rw [low 20 (by decide), start]
  case minutesEven =>
    exact even_onesIn_putParity (hi := 27) (by decide) (by decide) (by decide)
      (by simp [testBit_putParity, hz.minutesParity])
  case hoursEven =>
    exact even_onesIn_putParity (hi := 34) (by decide) (by decide) (by decide)
      (by simp [testBit_putParity, hz.hoursParity])
  case dateEven =>
    exact even_onesIn_putParity (hi := 57) (by decide) (by decide) (by decide)
      (by simp [testBit_putParity, high])
  case unusedZero =>
    intro i hi
    by_cases below : i < 21
    · rw [low i below, unused i below (by omega)]
    · have above : 59 ≤ i := by omega
      rw [testBit_putParity_of_ne z (by omega) (by omega) (by omega), high i (by omega)]

/-! ## The frame of an instant -/

/-- The civil datetime of a minute count is one of the calendar (42_calendar_zone.md R142, R143). -/
theorem validCivil_civilOf (t : Int) : validCivil (civilOf t) = true := by
  obtain ⟨hmonth, hday, -⟩ := civilFromDays_spec (t / 1440)
  refine (validCivil_iff _).mpr ⟨hmonth, hday, ?_, ?_⟩ <;> simp only [civilOf] <;> omega

/-- `frame_of(t)` holds the frame of the local datetime, whatever the zone and the cutoff (44_encoder.md R201). -/
theorem holdsFrame_frameAt (P : Params) (t o : Int) :
    HoldsFrame (frameAt P t o) (civilOf (t + o)) (decide (o = 120)) (decide (announce P t = some true)) := by
  simp only [frameAt, beq_eq_decide]
  exact holdsFrame_putParity (validCivil_civilOf (t + o))
    (holdsFields_putDatetime (frameFlags_lt _ _) (validCivil_civilOf (t + o)))

/-! ## ENCODE -/

theorem encodeResponse_of_invalid (P : Params) {c : Civil} (invalid : validCivil c = false) :
    encodeResponse P c = errorResponse 4 15 3 0 := by
  simp [encodeResponse, invalid, raiseArgument_eq, ErrSub.code, noWord]

theorem encodeResponse_of_undefined {P : Params} {c : Civil} (undefined : offsetAt P (minutesOf c) = none) :
    encodeResponse P c = errorResponse 4 15 3 0 := by
  simp [encodeResponse, undefined, raiseArgument_eq, ErrSub.code, noWord]

/-- ENCODE of an instant with an offset answers its frame (44_encoder.md R200, R201). -/
theorem encodeResponse_of_offset {P : Params} {c : Civil} (valid : validCivil c = true)
    (defined : offsetAt P (minutesOf c) ≠ none) :
    ∃ (x : Nat) (o : Int), offsetAt P (minutesOf c) = some o ∧
      HoldsFrame x (civilOf (minutesOf c + o)) (decide (o = 120)) (decide (announce P (minutesOf c) = some true)) ∧
      encodeResponse P c = scalarResponse x := by
  obtain ⟨o, offset⟩ := Option.ne_none_iff_exists'.mp defined
  refine ⟨frameAt P (minutesOf c) o, o, offset, holdsFrame_frameAt P (minutesOf c) o, ?_⟩
  simp [encodeResponse, valid, offset, returnScalar_eq]

theorem offsetAt_hardware_ne_none (t : Int) : offsetAt hardware t ≠ none :=
  Option.isSome_iff_ne_none.mp (offsetAt_no_cutoff_isSome hardware.zone t)

/-- With a cutoff the offset is undefined exactly from it on (42_calendar_zone.md R152). -/
theorem offsetAt_cutoff_eq_none_iff (zone : Zone) (k t : Int) :
    offsetAt { zone, cutoff := some k } t = none ↔ k ≤ t :=
  ((nothingIsDefinedAtOrAfterTheCutoff zone t).2 k).1

/-- Settles O43: an offset is all that the frame of a valid datetime needs, and only a cutoff takes it away. -/
theorem encodeReturnsTheFrame : Obligations.EncodeReturnsTheFrame := by
  intro s year month day hour minute _ c
  have answers (rsp : Response) (h : encodeResponse hardware c = rsp) :
      exec (.encode year month day hour minute) s = .next (answered s rsp) := (exec_answered_iff _ s rsp).mpr h.symm
  refine ⟨fun valid => ?_, fun invalid => answers _ (encodeResponse_of_invalid hardware invalid), fun k => ?_⟩
  · obtain ⟨x, o, offset, frame, response⟩ := encodeResponse_of_offset valid (offsetAt_hardware_ne_none _)
    exact ⟨x, o, offset, frame, answers _ response⟩
  · intro P valid
    have horizon := offsetAt_cutoff_eq_none_iff hardware.zone k (minutesOf c)
    exact ⟨fun late => encodeResponse_of_undefined (horizon.mpr late),
      fun early => encodeResponse_of_offset valid (mt horizon.mp early.not_ge)⟩

/-! ## ENCODE_LOCAL -/

/-- The one candidate of a local time that admits one offset and not the other. -/
theorem localOffsets_eq_singleton {P : Params} {L o : Int} (admitted : Admits P L o)
    (other : ¬ Admits P L (180 - o)) : localOffsets P L = [o] := by
  rcases admitted.1 with rfl | rfl
  · have no120 : ¬ Admits P L 120 := other
    simpa [admitted, no120] using localOffsets_cases P L
  · have no60 : ¬ Admits P L 60 := other
    simpa [admitted, no60] using localOffsets_cases P L

theorem encodeLocalResponse_of_invalid (P : Params) {c : Civil} (invalid : validCivil c = false) :
    encodeLocalResponse P c = errorResponse 4 15 3 0 := by
  simp [encodeLocalResponse, invalid, raiseArgument_eq, ErrSub.code, noWord]

theorem encodeLocalResponse_of_undefined {P : Params} {c : Civil} (undefined : offsetAt P (minutesOf c - 60) = none) :
    encodeLocalResponse P c = errorResponse 4 15 3 0 := by
  simp [encodeLocalResponse, cetOffset, undefined, raiseArgument_eq, ErrSub.code, noWord]

section BeforeTheHorizon

variable {P : Params} {c : Civil} (valid : validCivil c = true) (defined : offsetAt P (minutesOf c - 60) ≠ none)

include valid defined

theorem encodeLocalResponse_of_gap (no60 : ¬ Admits P (minutesOf c) 60) (no120 : ¬ Admits P (minutesOf c) 120) :
    encodeLocalResponse P c = errorResponse 4 15 4 0 := by
  have candidates : localOffsets P (minutesOf c) = [] := by
    simpa [no60, no120] using localOffsets_cases P (minutesOf c)
  simp [encodeLocalResponse, valid, cetOffset, defined, candidates, raiseArgument_eq, ErrSub.code, noWord]

theorem encodeLocalResponse_of_fallback (admits60 : Admits P (minutesOf c) 60) (admits120 : Admits P (minutesOf c) 120) :
    encodeLocalResponse P c = errorResponse 4 15 5 0 := by
  have candidates : localOffsets P (minutesOf c) = [60, 120] := by
    simpa [admits60, admits120] using localOffsets_cases P (minutesOf c)
  simp [encodeLocalResponse, valid, cetOffset, defined, candidates, raiseArgument_eq, ErrSub.code, noWord]

theorem encodeLocalResponse_of_one_offset {o : Int} (admitted : Admits P (minutesOf c) o)
    (other : ¬ Admits P (minutesOf c) (180 - o)) :
    ∃ x : Nat, HoldsFrame x c (decide (o = 120)) (decide (announce P (minutesOf c - o) = some true)) ∧
      encodeLocalResponse P c = scalarResponse x := by
  have frame := holdsFrame_frameAt P (minutesOf c - o) o
  rw [sub_add_cancel, civilOf_minutesOf valid] at frame
  refine ⟨_, frame, ?_⟩
  simp [encodeLocalResponse, valid, cetOffset, defined, localOffsets_eq_singleton admitted other, returnScalar_eq]

end BeforeTheHorizon

/-- Settles O44: before the horizon, which only a cutoff sets, the offsets the zone admits decide the case. -/
theorem encodeLocalReturnsTheFrame : Obligations.EncodeLocalReturnsTheFrame := by
  intro s year month day hour minute _ c run
  have answers (rsp : Response) (h : encodeLocalResponse hardware c = rsp) : run = .next (answered s rsp) :=
    (exec_answered_iff (.encodeLocal year month day hour minute) s rsp).mpr h.symm
  have defined : offsetAt hardware (minutesOf c - 60) ≠ none := offsetAt_hardware_ne_none _
  refine ⟨fun invalid => answers _ (encodeLocalResponse_of_invalid hardware invalid),
    fun valid no60 no120 => answers _ (encodeLocalResponse_of_gap valid defined no60 no120),
    fun valid admits60 admits120 => answers _ (encodeLocalResponse_of_fallback valid defined admits60 admits120),
    fun o valid admitted other => ?_, fun k => ?_⟩
  · obtain ⟨x, frame, response⟩ := encodeLocalResponse_of_one_offset valid defined admitted other
    exact ⟨x, frame, answers _ response⟩
  · intro P valid
    have horizon := offsetAt_cutoff_eq_none_iff hardware.zone k (minutesOf c - 60)
    refine ⟨fun late => encodeLocalResponse_of_undefined (horizon.mpr late), fun early => ?_⟩
    have defined : offsetAt P (minutesOf c - 60) ≠ none := mt horizon.mp early.not_ge
    exact ⟨encodeLocalResponse_of_gap valid defined, encodeLocalResponse_of_fallback valid defined,
      fun _ => encodeLocalResponse_of_one_offset valid defined⟩

end Sys2Proof.Machine

/-! # Every operation: round trips of requests, runs of a queue, legal responses

The two ideas. Decoding undoes encoding on well-formed operations (`decode_encode`), so what the host issues is what the
block executes. One step appends the answer to the first waiting request and moves the queue on (`step_cons`), so a run
answers as many requests as it has steps, in their order (`run_append`). -/

namespace Sys2Proof.Machine

/-! ## Requests -/

/-- The request of a well-formed operation decodes to it (30_encoding.md R61). -/
theorem decode_encode {i : Instr} (h : i.wf = true) : decode (encode i) = i := by
  cases i with
  | reserved0 => exact Laws.RequestRoundTrip.reserved0 h
  | extract a lo hi => exact Laws.RequestRoundTrip.extract a lo hi h
  | bcdDec a => exact Laws.RequestRoundTrip.bcdDec a h
  | bcdEnc a => exact Laws.RequestRoundTrip.bcdEnc a h
  | parity a lo hi => exact Laws.RequestRoundTrip.parity a lo hi h
  | frameFromWord a => exact Laws.RequestRoundTrip.frameFromWord a h
  | frameFromString sLen str => exact Laws.RequestRoundTrip.frameFromString sLen str h
  | bit a lo => exact Laws.RequestRoundTrip.bit a lo h
  | range a lo hi => exact Laws.RequestRoundTrip.range a lo hi h
  | decode a => exact Laws.RequestRoundTrip.decode a h
  | encode year month day hour minute => exact Laws.RequestRoundTrip.encode year month day hour minute h
  | encodeLocal year month day hour minute => exact Laws.RequestRoundTrip.encodeLocal year month day hour minute h
  | reservedC => exact Laws.RequestRoundTrip.reservedC h
  | reservedD => exact Laws.RequestRoundTrip.reservedD h
  | reservedE => exact Laws.RequestRoundTrip.reservedE h
  | reservedF => exact Laws.RequestRoundTrip.reservedF h

/-- The bytes of a request followed by others are read as the request, and the others are left. -/
theorem decodeBytes_toBytes_append (req : Request) (rest : List Byte) :
    decodeBytes (req.toBytes ++ rest) = .ok (decode req, rest) := by
  have whole : ¬ (req.toBytes ++ rest).length < requestBytes := by simp
  rw [decodeBytes, if_neg whole, List.take_left' (toBytes_length req), List.drop_left' (toBytes_length req),
    ofBytes_toBytes]

/-- Settles O1: the bytes hold the request, and the request the operation. -/
theorem requestBytesDecodeToTheirOperation : Obligations.RequestBytesDecodeToTheirOperation := fun i rest h => by
  rw [encodeBytes, decodeBytes_toBytes_append, decode_encode h]

/-- Settles O4: each word is divided into its fields and read. -/
theorem tableWordsDecodeToTheirRows : Obligations.TableWordsDecodeToTheirRows := by
  unfold Obligations.TableWordsDecodeToTheirRows
  decide

/-! ## The step -/

/-- A step on a waiting request appends its answer and moves the queue on. -/
theorem step_cons (req : Request) (rest : List Request) (rsps : List Response) :
    step { requests := req :: rest, responses := rsps } =
      .next { requests := rest, responses := rsps ++ [answer req] } := by
  rw [step_request _ req rest rfl, exec_eq_answered]
  rfl

/-- A host that issues a well-formed operation has that operation executed. -/
theorem issueOperation_of_wf {i : Instr} (s : State) (h : i.wf = true) : issueOperation i s = exec i s := by
  rw [issueOperation, step_issue, decode_encode h]

/-- Settles O5: what is put on the port is the next request taken. -/
theorem stepRunsTheDecodedRequest : Obligations.StepRunsTheDecodedRequest := by
  refine ⟨fun s req rest i waiting decoded => ?_, fun s nbits w i decoded => ?_⟩
  · rw [step_request s req rest waiting, decoded]
  · obtain ⟨-, decoded⟩ := Option.ite_none_right_eq_some.mp decoded
    rw [State.withFetchWord, step_issue, Option.some_inj.mp decoded]

/-- Settles O7: an idle step changes nothing. -/
theorem stepWithoutRequestGivesNoResponse : Obligations.StepWithoutRequestGivesNoResponse := step_idle

/-- Settles O8, constructor by constructor in `exec_eq_answered`. -/
theorem everyOperationAnswersOnce : Obligations.EveryOperationAnswersOnce := exec_eq_answered

/-- Settles O50: the response just delivered is the last one, and presenting a request delivers none. -/
theorem hostReadGivesTheLastResponse : Obligations.HostReadGivesTheLastResponse := fun s req later => by
  refine ⟨answer req, by rw [step_issue, exec_eq_answered, answer], ?_, ?_⟩
  · exact State.readResponse_deliver s (answer req)
  · rw [State.readResponse_present]
    exact State.readResponse_deliver s (answer req)

/-! ## Runs of a queue -/

/-- A run of as many steps as there are requests in front of `behind` answers those, in their order. -/
theorem run_append (front behind : List Request) (rsps : List Response) :
    core.run front.length { requests := front ++ behind, responses := rsps } =
      .next { requests := behind, responses := rsps ++ front.map answer } := by
  induction front generalizing rsps with
  | nil => simp
  | cons req front ih =>
    rw [List.length_cons, List.cons_append, run_succ _ (step_cons req _ rsps), ih, List.map_cons, List.append_assoc,
      List.singleton_append]

/-- Settles O11: the whole queue is in front of nothing. -/
theorem queueIsAnsweredRequestByRequest : Obligations.QueueIsAnsweredRequestByRequest := fun s => by
  simpa using run_append s.requests [] s.responses

/-- Settles O10: the last response is the answer to the last request taken, in which the state has no part. -/
theorem queuedRequestsAreIndependent : Obligations.QueuedRequestsAreIndependent := by
  rintro ⟨requests, rsps⟩ before behind req rfl
  refine ⟨{ requests := behind, responses := rsps ++ (before ++ [req]).map answer }, answer req, ?_, rfl, ?_, ?_⟩
  · simpa using run_append (before ++ [req]) behind rsps
  · simp
  · rw [step_issue, exec_eq_answered, answer]

/-! ## Legal responses -/

/-- A valid civil datetime of 2000 to 2165 fits the `q` fields, so they hold it unchanged (10_state.md R23). -/
theorem datetimeResponse_datetimeLegal {c : Civil} (cest : Bool) (lo : 2000 ≤ c.year) (hi : c.year ≤ 2165)
    (valid : validCivil c = true) : (datetimeResponse c cest).datetimeLegal := by
  obtain ⟨hmonth, hday, hhour, hminute⟩ := (validCivil_iff c).mp valid
  have longest := (daysInMonth_bounds c.year c.month).2
  have year : ((BitVec.ofNat 12 c.year.toNat).toNat : Int) = c.year := by rw [BitVec.toNat_ofNat]; omega
  have month : ((BitVec.ofNat 4 c.month.toNat).toNat : Int) = c.month := by rw [BitVec.toNat_ofNat]; omega
  have day : ((BitVec.ofNat 5 c.day.toNat).toNat : Int) = c.day := by rw [BitVec.toNat_ofNat]; omega
  have hour : ((BitVec.ofNat 5 c.hour.toNat).toNat : Int) = c.hour := by rw [BitVec.toNat_ofNat]; omega
  have minute : ((BitVec.ofNat 6 c.minute.toNat).toNat : Int) = c.minute := by rw [BitVec.toNat_ofNat]; omega
  simp only [Response.datetimeLegal, datetimeResponse, year, month, day, hour, minute]
  exact ⟨by omega, by omega, valid⟩

/-- Whatever an operation can answer is legal. -/
theorem Answers.legal {i : Instr} {rsp : Response} (h : Answers i rsp) : rsp.legal := by
  cases h with
  | error kind tag sub status => exact raise_legal status
  | scalar v _ => exact returnScalar_legal v
  | @datetime x cest valid =>
    rw [returnDatetime_frameFields]
    rw [frameFields_civil] at valid
    obtain ⟨lo, hi⟩ := frameCivil_year_bounds x
    exact .inr (.inl ⟨datetimeResponse_datetimeLegal cest lo hi valid, rfl, rfl, rfl, rfl, rfl⟩)

/-- Settles O13: reset holds no response. -/
theorem resetResponsesAreLegal : Obligations.ResetResponsesAreLegal := fun _ h => absurd h List.not_mem_nil

/-- Settles O12: a step appends a legal answer, or, idle, nothing. -/
theorem stepKeepsResponsesLegal : Obligations.StepKeepsResponsesLegal := by
  rintro ⟨requests, rsps⟩ t legal stepped
  cases requests with
  | nil =>
    rw [step_idle _ rfl] at stepped
    cases stepped
    exact legal
  | cons req rest =>
    rw [step_cons] at stepped
    cases stepped
    have answerLegal : (answer req).legal := (responseOf_answers (decode req)).legal
    exact List.forall_mem_append.mpr ⟨legal, List.forall_mem_singleton.mpr answerLegal⟩

/-- Codes without what 30_encoding.md R78 to R80 reserve, with a tag exactly on an error, and with a detail, and tag 15,
exactly on an ARGUMENT error. -/
def StatusAllowed (kind : BitVec 3) (tag : BitVec 4) (sub : BitVec 3) : Prop :=
  kind.toNat ≤ 4 ∧ tag ≠ 6 ∧ sub ≠ 7 ∧ (tag = 0 ↔ kind = 0) ∧ (sub ≠ 0 ↔ kind = 4) ∧ (tag = 15 ↔ kind = 4)

theorem statusAllowed_success : StatusAllowed 0 0 0 := by unfold StatusAllowed; decide

/-- The errors of 60_exceptions.md R222 have no reserved code. -/
theorem statusAllowed_of_mem_legalStatuses {kind : BitVec 3} {tag : BitVec 4} {sub : BitVec 3}
    (h : (kind.toNat, tag.toNat, sub.toNat) ∈ legalStatuses) : StatusAllowed kind tag sub := by
  have table : ∀ p ∈ legalStatuses, p.1 ≤ 4 ∧ p.2.1 ≠ 6 ∧ p.2.2 ≠ 7 ∧ (p.2.1 = 0 ↔ p.1 = 0) ∧
      (p.2.2 ≠ 0 ↔ p.1 = 4) ∧ (p.2.1 = 15 ↔ p.1 = 4) := by decide
  simpa [StatusAllowed, ← BitVec.toNat_inj] using table _ h

/-- Settles O16: an error has a status of the table, and a success has none. -/
theorem reservedStatusCodesAreNeverProduced : Obligations.ReservedStatusCodesAreNeverProduced := by
  intro i s rsp h
  have answers := responseOf_answers i
  rw [← (exec_answered_iff i s rsp).mp h] at answers
  cases answers with
  | error kind tag sub status => exact statusAllowed_of_mem_legalStatuses status
  | scalar v _ => exact statusAllowed_success
  | datetime cest _ => exact statusAllowed_success

end Sys2Proof.Machine

/-! # Frame accessors, successive dates, and local minutes with no offset or two

The two ideas. A date of January or February is counted from its year's beginning, a later one back from the next year's
(`daysFromCivil_early`, `daysFromCivil_late`), so only the step from February to March has to look for a leap day. A local
minute read with the two offsets is two instants an hour apart, so it has no offset, or two, exactly when summer time begins,
or ends, between them (`begins_within_hour_iff`, `ends_within_hour_iff`). -/

namespace Sys2Proof.Machine

/-! ## Frame accessors -/

/-- The field of one bit is that bit (40_bitfield.md R100). -/
theorem extractBits_self (x i : Nat) : extractBits x i i = bitAt x i := by
  rw [extractBits_eq, Nat.sub_self, bitAt, Nat.toNat_testBit, Nat.zero_add, Nat.pow_one]

/-- The field of all the bits of a number is the number. -/
theorem extractBits_zero_of_lt {x hi : Nat} (h : x < 2 ^ (hi + 1)) : extractBits x 0 hi = x := by
  rw [extractBits_eq, Nat.pow_zero, Nat.div_one, Nat.sub_zero, Nat.mod_eq_of_lt h]

/-- RANGE of a frame, its indices within it (41_frame.md R125). -/
theorem exec_range_of_lt (s : State) {a lo hi : Nat} (frame : a < 2 ^ 60) (hle : lo ≤ hi) (hhi : hi ≤ 59) :
    exec (.range a lo hi) s = .next (answered s (scalarResponse (extractBits a lo hi))) :=
  (exec_of_guard s ((answers_of_frameTest (i := .range a lo hi) s rfl).1 frame)).1 (by omega)

/-- Settles O29: all four operations answer fields of the word. -/
theorem frameAccessorsAgree : Obligations.FrameAccessorsAgree := by
  intro s a lo hi frame hle hhi
  have extract := (exec_of_guard (i := .extract a lo hi) s rfl).1 (Nat.not_lt.mpr hle)
  have bit := (exec_of_guard s ((answers_of_frameTest (i := .bit a lo) s rfl).1 frame)).1
    (Nat.not_lt.mpr (hle.trans hhi))
  refine ⟨?_, ?_, ?_⟩
  · rw [exec_range_of_lt s frame hle hhi, extract]
  · rw [exec_range_of_lt s frame le_rfl (hle.trans hhi), bit, extractBits_self]
  · rw [exec_range_of_lt s frame (Nat.zero_le _) le_rfl, extractBits_zero_of_lt frame]

/-! ## Successive dates -/

/-- January and February count from the year's beginning. -/
theorem daysFromCivil_early (year day : Int) {month : Int} (hm : month = 1 ∨ month = 2) :
    daysFromCivil year month day = daysFromCivil year 1 1 + 31 * (month - 1) + (day - 1) := by
  rcases hm with rfl | rfl <;> simp only [daysFromCivil_eq _ _ _ _ rfl, boolInt] <;> norm_num <;> ring

/-- The months from March on count down to the next year's beginning, so no leap day lies in between. -/
theorem daysFromCivil_late (year day : Int) {month : Int} (hm : 3 ≤ month ∧ month ≤ 12) :
    daysFromCivil year month day =
      daysFromCivil (year + 1) 1 1 - 306 + (153 * (month - 3) + 2) / 5 + (day - 1) := by
  have late : ¬ month ≤ 2 := by omega
  have fromMarch : (month + 9) % 12 = month - 3 := by omega
  simp only [daysFromCivil_eq _ _ _ _ rfl, boolInt, late, fromMarch]
  norm_num
  ring

/-- The first of the next month follows the last day of a month (42_calendar_zone.md R141). -/
theorem daysFromCivil_month {year month : Int} (h1 : 1 ≤ month) (h12 : month < 12) :
    daysFromCivil year (month + 1) 1 = daysFromCivil year month (daysInMonth year month) + 1 := by
  rcases (by omega : month = 1 ∨ month = 2 ∨ 3 ≤ month) with rfl | rfl | h3
  · rw [daysFromCivil_early year 1 (month := 1 + 1) (.inr rfl),
      daysFromCivil_early year (daysInMonth year 1) (.inl rfl), daysInMonth_other (by decide)]
    norm_num
    ring
  · rw [daysFromCivil_late year _ (by decide), daysFromCivil_early year _ (.inr rfl), daysFromCivil_january,
      daysInMonth_february]
    split <;> omega
  · rw [daysFromCivil_late year _ ⟨by omega, by omega⟩, daysFromCivil_late year _ ⟨h3, by omega⟩,
      daysInMonth_other (by omega)]
    interval_cases month <;> norm_num <;> ring

/-- 1 January follows 31 December. -/
theorem daysFromCivil_december (year : Int) : daysFromCivil (year + 1) 1 1 = daysFromCivil year 12 31 + 1 := by
  rw [daysFromCivil_late year 31 (by decide)]
  omega

/-- The weekday of the following day. -/
theorem weekdayOf_next {y m d y' m' d' : Int} (h : daysFromCivil y' m' d' = daysFromCivil y m d + 1) :
    weekdayOf y' m' d' = if weekdayOf y m d = 7 then 1 else weekdayOf y m d + 1 := by
  unfold weekdayOf
  rw [h]
  split <;> omega

/-- Settles O31, by each of the three ways a date can be followed by the next. -/
theorem dayCountFollowsTheCalendar : Obligations.DayCountFollowsTheCalendar := by
  refine ⟨by decide, by decide, fun year month day h1 h12 _ _ => ?_⟩
  have isNext {y m d : Int} (h : daysFromCivil y m d = daysFromCivil year month day + 1) :=
    And.intro h (weekdayOf_next h)
  refine ⟨weekdayOf_bounds year month day, fun _ => isNext (daysFromCivil_day year month day 1), ?_, ?_⟩
  · rintro rfl notLast
    exact isNext (daysFromCivil_month h1 notLast)
  · rintro rfl rfl
    exact isNext (daysFromCivil_december year)

/-! ## Minute counts -/

/-- The minute count of an instant's civil datetime is the instant (42_calendar_zone.md R142). -/
theorem minutesOf_civilOf (t : Int) : minutesOf (civilOf t) = t := by
  obtain ⟨-, -, count⟩ := civilFromDays_spec (t / 1440)
  simp only [minutesOf, civilOf, count]
  omega

/-- Settles O32, by `validCivil_civilOf` and the two inverse laws. -/
theorem civilDatetimesAndMinutesAreInverse : Obligations.CivilDatetimesAndMinutesAreInverse :=
  ⟨fun t => ⟨validCivil_civilOf t, minutesOf_civilOf t⟩, fun _ => civilOf_minutesOf⟩

/-! ## Local minutes -/

/-- The instant lies in the summer time of some year (42_calendar_zone.md R150). -/
def InSummer (t : Int) : Prop := ∃ year, hardware.zone.summerStart year ≤ t ∧ t < hardware.zone.summerEnd year

/-- The offset at an instant is +120 in a summer time and +60 outside (42_calendar_zone.md R150). -/
theorem offsetAt_hardware_iff (t : Int) :
    (offsetAt hardware t = some 120 ↔ InSummer t) ∧ (offsetAt hardware t = some 60 ↔ ¬ InSummer t) := by
  obtain ⟨summer, winter, -⟩ := summerTimeRunsFromMarchToOctober
  by_cases h : InSummer t
  · have offset := summer t h
    simp [offset, h]
  · have offset : offsetAt hardware t = some 60 := winter t (by simpa [InSummer, or_iff_not_imp_left] using h)
    simp [offset, h]

theorem admits_cest_iff (L : Int) : Admits hardware L 120 ↔ InSummer (L - 120) :=
  (and_iff_right (.inr rfl)).trans (offsetAt_hardware_iff _).1

theorem admits_cet_iff (L : Int) : Admits hardware L 60 ↔ ¬ InSummer (L - 60) :=
  (and_iff_right (.inl rfl)).trans (offsetAt_hardware_iff _).2

/-- Summer times last longer than a day, and each ends more than a day before a later one begins. -/
theorem summer_order (year : Int) :
    hardware.zone.summerStart year + 1440 < hardware.zone.summerEnd year ∧
      ∀ later, year < later → hardware.zone.summerEnd year + 1440 < hardware.zone.summerStart later := by
  have start := summerStart_bounds year
  have stop := summerEnd_bounds year
  refine ⟨by omega, fun later h => ?_⟩
  have next := (summerStart_bounds later).1
  have mono := yearStart_strictMono.monotone (Int.add_one_le_of_lt h)
  have long := yearStart_succ year
  unfold yearStart at mono long
  omega

/-- Summer time begins between an instant and the one an hour later exactly when the later one alone lies in it. -/
theorem begins_within_hour_iff (t : Int) :
    InSummer (t + 60) ∧ ¬ InSummer t ↔
      ∃ year, hardware.zone.summerStart year ≤ t + 60 ∧ t < hardware.zone.summerStart year := by
  constructor
  · rintro ⟨⟨year, started, notEnded⟩, before⟩
    exact ⟨year, started, Int.not_le.mp fun begun => before ⟨year, begun, by omega⟩⟩
  · rintro ⟨year, started, notBegun⟩
    obtain ⟨length, -⟩ := summer_order year
    refine ⟨⟨year, started, by omega⟩, ?_⟩
    rintro ⟨other, otherStarted, otherNotEnded⟩
    rcases lt_trichotomy other year with earlier | rfl | later
    · have ended := (summer_order other).2 year earlier
      omega
    · omega
    · have notStarted := (summer_order year).2 other later
      omega

/-- Summer time ends between an instant and the one an hour later exactly when the earlier one alone lies in it. -/
theorem ends_within_hour_iff (t : Int) :
    ¬ InSummer (t + 60) ∧ InSummer t ↔
      ∃ year, hardware.zone.summerEnd year ≤ t + 60 ∧ t < hardware.zone.summerEnd year := by
  constructor
  · rintro ⟨after, year, started, notEnded⟩
    exact ⟨year, Int.not_lt.mp fun goesOn => after ⟨year, by omega, goesOn⟩, notEnded⟩
  · rintro ⟨year, ended, notEnded⟩
    obtain ⟨length, -⟩ := summer_order year
    refine ⟨?_, ⟨year, by omega, notEnded⟩⟩
    rintro ⟨other, otherStarted, otherNotEnded⟩
    rcases lt_trichotomy other year with earlier | rfl | later
    · have longEnded := (summer_order other).2 year earlier
      omega
    · omega
    · have notStarted := (summer_order year).2 other later
      omega

/-- Settles O37: read as +60 and as +120 a local minute is two instants an hour apart. -/
theorem gapAndFallbackHoursAreTheOnlyExceptions : Obligations.GapAndFallbackHoursAreTheOnlyExceptions := by
  intro L
  have hour : L - 60 = L - 120 + 60 := by ring
  rw [admits_cest_iff, admits_cet_iff, not_not, hour, begins_within_hour_iff, ends_within_hour_iff]
  refine ⟨exists_congr fun year => ?_, exists_congr fun year => ?_⟩ <;> constructor <;> intro h <;> omega

end Sys2Proof.Machine

/-! # DECODE against ENCODE, against changed bits, and in DECODE_STR

The two ideas. A frame of a datetime of the fixed century passes every check (`checkHolds_of_holdsFrame`), so DECODE answers
what the frame was made from (`decodeResponse_frameAt`). The checks look at bits 0, 16 to 18 and 20 to 63 alone
(`AgreeOnExamined.passes_eq`), and a flipped bit of a parity group fails that group's check and none before it
(`checkHolds_flip`). -/

namespace Sys2Proof.Machine

open Sys2Proof.Config

/-! ## The frame of a datetime decodes to it -/

/-- The two digits of a field that was written in BCD. -/
theorem digitsOf_of_bcd {v : Nat} {n : Int} (h : (v : Int) = n / 10 * 16 + n % 10) :
    (digitsOf v : Int) = n := by
  unfold digitsOf
  omega

/-- The digits of a frame write its datetime, if the year is one of the fixed century (30_encoding.md R70). -/
theorem frameCivil_of_holdsFrame {x : Nat} {c : Civil} {summer announced : Bool} (h : HoldsFrame x c summer announced)
    (valid : validCivil c = true) (lo : 2000 ≤ c.year) (hi : c.year ≤ 2099) : frameCivil x = c := by
  obtain ⟨hmonth, hday, hhour, hminute⟩ := (validCivil_iff c).mp valid
  have longest := (daysInMonth_bounds c.year c.month).2
  have year : (digitsOf (fieldOf x 50 8) : Int) = c.year % 100 :=
    digitsOf_of_bcd (by rw [h.year]; omega)
  have month : (digitsOf (fieldOf x 45 5) : Int) = c.month := digitsOf_of_bcd h.month
  have day : (digitsOf (fieldOf x 36 6) : Int) = c.day := digitsOf_of_bcd h.day
  have hour : (digitsOf (fieldOf x 29 6) : Int) = c.hour := digitsOf_of_bcd h.hour
  have minute : (digitsOf (fieldOf x 21 7) : Int) = c.minute := digitsOf_of_bcd h.minute
  have century : ((digitsOf (fieldOf x 50 8) + 2000 : Nat) : Int) = c.year := by omega
  rw [frameCivil, century, month, day, hour, minute]

/-- A frame made for an offset that the zone admits has that offset: where the zone admits both, the CEST flag, set for
+120, decides (43_decoder.md R180). -/
theorem frameOffset_of_holdsFrame {P : Params} {x : Nat} {o : Int} {announced : Bool}
    (h : HoldsFrame x (frameCivil x) (decide (o = 120)) announced) (admitted : Admits P (minutesOf (frameCivil x)) o) :
    flagOffset x = o ∧ FrameOffset P x o := by
  have flag : flagOffset x = o := by
    rw [flagOffset, h.cest]
    rcases admitted.1 with rfl | rfl <;> rfl
  exact ⟨flag, admitted, fun _ => flag.symm⟩

/-- A frame made for an offset that the zone admits, with the announcement of its instant, passes every check. -/
theorem checkHolds_of_holdsFrame {P : Params} {x : Nat} {o : Int} (valid : validCivil (frameCivil x) = true)
    (h : HoldsFrame x (frameCivil x) (decide (o = 120))
      (decide (announce P (minutesOf (frameCivil x) - o) = some true)))
    (admitted : Admits P (minutesOf (frameCivil x)) o) (k : Nat) : CheckHolds P x k := by
  obtain ⟨flag, offset⟩ := frameOffset_of_holdsFrame h admitted
  match k with
  | 0 => exact Nat.lt_pow_two_of_testBit x fun i hi => h.unusedZero i (by omega)
  | 1 => exact h.unusedZero 0 (by decide)
  | 2 => simp [CheckHolds, h.cest, h.cet]
  | 3 => exact h.startOfTime
  | 4 => exact h.minutesEven
  | 5 => exact h.hoursEven
  | 6 => trivial
  | 7 => exact h.dateEven
  | 8 => exact h.unusedZero 59 (by decide)
  | 9 => exact ⟨valid, o, offset⟩
  | 10 => exact h.weekday.symm
  | 11 =>
    rw [← flag] at offset
    exact offset
  | 12 =>
    intro o' v offset' announcement
    rw [frameOffset_unique offset' offset] at announcement
    rw [h.announcement, announcement]
    cases v <;> rfl
  | _ + 13 => trivial

/-- The frame of an instant at its offset decodes to the local datetime and the offset, in the fixed century
(43_decoder.md R184, 44_encoder.md R201). -/
theorem decodeResponse_frameAt {P : Params} {t o : Int} (offset : offsetAt P t = some o)
    (lo : 2000 ≤ (civilOf (t + o)).year) (hi : (civilOf (t + o)).year ≤ 2099) :
    decodeResponse P (frameAt P t o) = datetimeResponse (civilOf (t + o)) (decide (o = 120)) := by
  have frame := holdsFrame_frameAt P t o
  have civil := frameCivil_of_holdsFrame frame (validCivil_civilOf _) lo hi
  have instant : minutesOf (civilOf (t + o)) - o = t := by rw [minutesOf_civilOf, add_sub_cancel_right]
  have admitted : Admits P (minutesOf (civilOf (t + o))) o := ⟨offsetAt_some offset, by rw [instant, offset]⟩
  have checks (k : Nat) : CheckHolds P (frameAt P t o) k := by
    refine checkHolds_of_holdsFrame (o := o) ?_ ?_ ?_ k
    · rw [civil, validCivil_civilOf]
    · rwa [civil, instant]
    · rwa [civil]
  rw [decodeResponse_of_checks fun k _ => checks k, civil, frame.cest]

theorem encodeResponse_eq_frameAt {P : Params} {c : Civil} {o : Int} (valid : validCivil c = true)
    (offset : offsetAt P (minutesOf c) = some o) :
    encodeResponse P c = scalarResponse (frameAt P (minutesOf c) o) := by
  simp [encodeResponse, valid, offset, returnScalar_eq]

/-- Settles O45: ENCODE answers the frame of the instant at its offset. -/
theorem decodeInvertsEncode : Obligations.DecodeInvertsEncode := by
  intro s year month day hour minute _ c o valid offset lo hi
  refine ⟨frameAt hardware (minutesOf c) o, (exec_answered_iff _ s _).mpr ?_, (exec_answered_iff _ s _).mpr ?_⟩
  · exact (encodeResponse_eq_frameAt valid offset).symm
  · exact (decodeResponse_frameAt offset lo hi).symm

/-! ## The two frames of a fallback-hour minute -/

/-- The fields of a datetime are put beside the flags. -/
theorem putDatetime_eq_or (flags : Nat) (c : Civil) : putDatetime flags c = flags ||| putDatetime 0 c := by
  simp [putDatetime, putField, Nat.or_assoc]

/-- Above the flags a word with a datetime's fields holds the fields alone. -/
theorem testBit_putDatetime_high {flags : Nat} (h : flags < 2 ^ 21) (c : Civil) {i : Nat} (hi : 21 ≤ i) :
    (putDatetime flags c).testBit i = (putDatetime 0 c).testBit i := by
  rw [putDatetime_eq_or, Nat.testBit_or, testBit_eq_false_of_le h hi, Bool.false_or]

/-- Words with the same bits from 21 up get the same parity bits, so they go on having the same bits there. -/
theorem testBit_putParity_high {x y : Nat} (h : ∀ i, 21 ≤ i → x.testBit i = y.testBit i) {i : Nat} (hi : 21 ≤ i) :
    (putParity x).testBit i = (putParity y).testBit i := by
  have parity {lo hi : Nat} (hlo : 21 ≤ lo) : parityOfRange x lo hi = parityOfRange y lo hi := by
    have field : extractBits x lo hi = extractBits y lo hi :=
      Nat.eq_of_testBit_eq fun k => by rw [testBit_extractBits, testBit_extractBits, h _ (by omega)]
    rw [parityOfRange, field, parityOfRange]
  rw [testBit_putParity, testBit_putParity, h i hi, parity (by decide), parity (by decide), parity (by decide)]

/-- Frames of one datetime differ in their flags alone: the parity bits do not cover the flags (30_encoding.md R72). -/
theorem putParity_putDatetime_xor {f g : Nat} {c : Civil} (hf : f < 2 ^ 21) (hg : g < 2 ^ 21)
    (valid : validCivil c = true) :
    putParity (putDatetime f c) ^^^ putParity (putDatetime g c) = f ^^^ g := by
  refine Nat.eq_of_testBit_eq fun i => ?_
  rw [Nat.testBit_xor, Nat.testBit_xor]
  by_cases low : i < 21
  · have flag {flags : Nat} (h : flags < 2 ^ 21) : (putParity (putDatetime flags c)).testBit i = flags.testBit i := by
      rw [testBit_putParity_of_ne _ (by omega) (by omega) (by omega)]
      conv_rhs => rw [← (holdsFields_putDatetime h valid).flags]
      rw [Nat.testBit_mod_two_pow, decide_eq_true low, Bool.true_and]
    rw [flag hf, flag hg]
  · have high : 21 ≤ i := Nat.le_of_not_lt low
    have fields : ∀ k, 21 ≤ k → (putDatetime f c).testBit k = (putDatetime g c).testBit k := fun k hk => by
      rw [testBit_putDatetime_high hf c hk, testBit_putDatetime_high hg c hk]
    rw [testBit_putParity_high fields high, Bool.xor_self, testBit_eq_false_of_le hf high,
      testBit_eq_false_of_le hg high, Bool.xor_self]

/-- Near the end of a year's summer time, in UTC or in local time, the year is that one. -/
theorem civilOf_year_near_summerEnd {year t : Int} (lo : hardware.zone.summerEnd year - 60 ≤ t)
    (hi : t < hardware.zone.summerEnd year + 120) : (civilOf t).year = year := by
  have stop := summerEnd_bounds year
  have next := yearStart_succ year
  unfold yearStart at next
  refine civilOf_year_eq ?_ ?_ <;> unfold yearStart <;> omega

/-- In the last hour of a summer time its end is announced; in the first hour after it nothing is, for the next transition is
months away (42_calendar_zone.md R155). -/
theorem announce_around_summerEnd {year t : Int} (lo : hardware.zone.summerEnd year - 60 ≤ t) :
    (t < hardware.zone.summerEnd year → announce hardware t = some true) ∧
    (hardware.zone.summerEnd year ≤ t → t < hardware.zone.summerEnd year + 60 → announce hardware t = some false) := by
  obtain ⟨-, marks, -⟩ := announcementMarksTheHourBeforeATransition
  refine ⟨fun before => (marks t).1 ⟨_, ⟨year, .inr rfl⟩, lo, by omega⟩, fun ended early => (marks t).2 ?_⟩
  rintro n ⟨other, hn⟩
  have length := (summer_order other).1
  rcases lt_trichotomy other year with earlier | rfl | later
  · have past := (summer_order other).2 year earlier
    have thisLength := (summer_order year).1
    omega
  · omega
  · have far := (summer_order year).2 other later
    omega

/-- ENCODE of the datetime of an instant whose year is not negative. -/
theorem exec_encodeOf_civilOf (s : State) {t o : Int} (year : 0 ≤ (civilOf t).year)
    (offset : offsetAt hardware t = some o) :
    exec (encodeOf (civilOf t)) s = .next (answered s (scalarResponse (frameAt hardware t o))) := by
  obtain ⟨hmonth, hday, hhour, hminute⟩ := (validCivil_iff _).mp (validCivil_civilOf t)
  have request : requestCivil (civilOf t).year.toNat (civilOf t).month.toNat (civilOf t).day.toNat (civilOf t).hour.toNat
      (civilOf t).minute.toNat = civilOf t := by
    rw [requestCivil, Int.toNat_of_nonneg year, Int.toNat_of_nonneg (by omega), Int.toNat_of_nonneg (by omega),
      Int.toNat_of_nonneg hhour.1, Int.toNat_of_nonneg hminute.1]
  have response := encodeResponse_eq_frameAt (P := hardware) (validCivil_civilOf t) (by rw [minutesOf_civilOf, offset])
  rw [encodeOf, exec_encode, request, response, minutesOf_civilOf, answered_eq_deliver]

/-- The offsets in the last hour of a summer time and in the first hour after it (42_calendar_zone.md R150). -/
theorem offsetAt_around_summerEnd (year : Int) {k : Int} (hk : 0 ≤ k ∧ k < 60) :
    offsetAt hardware (hardware.zone.summerEnd year - 60 + k) = some 120 ∧
      offsetAt hardware (hardware.zone.summerEnd year + k) = some 60 := by
  obtain ⟨after, before⟩ := (ends_within_hour_iff (hardware.zone.summerEnd year - 60 + k)).mpr ⟨year, by omega, by omega⟩
  have later : hardware.zone.summerEnd year - 60 + k + 60 = hardware.zone.summerEnd year + k := by ring
  rw [later] at after
  exact ⟨(offsetAt_hardware_iff _).1.mpr before, (offsetAt_hardware_iff _).2.mpr after⟩

/-- Settles O46: the two instants have one local datetime, and bits 16 and 17 are set in the earlier one's frame alone, bit
18 in the later one's. -/
theorem fallbackHourFramesBothDecode : Obligations.FallbackHourFramesBothDecode := by
  intro s year k lo hi hk0 hk c
  obtain ⟨cest, cet⟩ := offsetAt_around_summerEnd year ⟨hk0, hk⟩
  have local120 : hardware.zone.summerEnd year - 60 + k + 120 = hardware.zone.summerEnd year + 60 + k := by ring
  have local60 : hardware.zone.summerEnd year + k + 60 = hardware.zone.summerEnd year + 60 + k := by ring
  have localYear : (civilOf (hardware.zone.summerEnd year + 60 + k)).year = year :=
    civilOf_year_near_summerEnd (by omega) (by omega)
  have utcYear : (civilOf (hardware.zone.summerEnd year - 60 + k)).year = year :=
    civilOf_year_near_summerEnd (by omega) (by omega)
  have utcYear' : (civilOf (hardware.zone.summerEnd year + k)).year = year :=
    civilOf_year_near_summerEnd (by omega) (by omega)
  have decodes := decodeResponse_frameAt cest (by rwa [local120, localYear]) (by rwa [local120, localYear])
  have decodes' := decodeResponse_frameAt cet (by rwa [local60, localYear]) (by rwa [local60, localYear])
  rw [local120] at decodes
  rw [local60] at decodes'
  refine ⟨_, _, exec_encodeOf_civilOf s (by omega) cest, exec_encodeOf_civilOf s (by omega) cet, ?_,
    (holdsFrame_frameAt _ _ _).cest, (exec_answered_iff _ s _).mpr decodes.symm,
    (exec_answered_iff _ s _).mpr decodes'.symm⟩
  have announced := (announce_around_summerEnd (year := year) (t := hardware.zone.summerEnd year - 60 + k) (by omega)).1
    (by omega)
  have notAnnounced := (announce_around_summerEnd (year := year) (t := hardware.zone.summerEnd year + k) (by omega)).2
    (by omega) (by omega)
  rw [frameAt, frameAt, announced, notAnnounced, local120, local60,
    putParity_putDatetime_xor (frameFlags_lt _ _) (frameFlags_lt _ _) (validCivil_civilOf _)]
  decide

/-! ## Unexamined bits -/

/-- The words have the same bits wherever the decoder looks (43_decoder.md R185). -/
def AgreeOnExamined (x y : Nat) : Prop := ∀ i, ¬ (1 ≤ i ∧ i ≤ 15) → i ≠ 19 → x.testBit i = y.testBit i

section Examined

variable {x y : Nat} (h : AgreeOnExamined x y)

include h

theorem AgreeOnExamined.bitAt_eq {i : Nat} (hi : i = 0 ∨ 16 ≤ i ∧ i ≠ 19) : bitAt x i = bitAt y i :=
  (bitAt_eq_iff x y i i).mpr (h i (by omega) (by omega))

theorem AgreeOnExamined.extractBits_eq {lo : Nat} (hi : Nat) (hlo : 20 ≤ lo) :
    extractBits x lo hi = extractBits y lo hi :=
  Nat.eq_of_testBit_eq fun i => by rw [testBit_extractBits, testBit_extractBits, h _ (by omega) (by omega)]

theorem AgreeOnExamined.frameFields_eq : frameFields x = frameFields y := by
  simp [frameFields, h.extractBits_eq]

theorem AgreeOnExamined.isFrame_eq : isFrame x = isFrame y := by
  have top : x >>> 60 = y >>> 60 := Nat.eq_of_testBit_eq fun i => by
    rw [Nat.testBit_shiftRight, Nat.testBit_shiftRight, h _ (by omega) (by omega)]
  rw [isFrame, frameBits, top, isFrame, frameBits]

/-- Each check has the same outcome for both words. -/
theorem AgreeOnExamined.passes_eq (P : Params) (k : Nat) : passes P x k = passes P y k := by
  unfold passes
  split <;>
    simp [h.isFrame_eq, h.bitAt_eq, h.extractBits_eq, parityOfRange, h.frameFields_eq, claimedOffset, announcementAgrees]

end Examined

/-- The checks that can fail have an error of their own. -/
theorem checkFailure_errKind_ne_zero {P : Params} {x k : Nat} (h : passes P x k = false) :
    (checkFailure x k).errKind ≠ 0 := by
  change BitVec.ofNat 3 (checkError k).1 ≠ 0
  match k with
  | 0 | 1 | 2 | 3 | 4 | 5 | 7 | 8 | 9 | 10 | 11 | 12 => decide
  | 6 | _ + 13 => cases h

/-- The same check fails first for both words, or none does and their datetimes are the same. -/
theorem AgreeOnExamined.decodeResponse_eq {x y : Nat} (h : AgreeOnExamined x y) (P : Params) :
    decodeResponse P y =
      { decodeResponse P x with
        errWord := if (decodeResponse P x).errKind = 0 then 0 else BitVec.ofNat 64 y } := by
  have samePasses : passes P y = passes P x := funext fun k => (h.passes_eq P k).symm
  have sameCivil : frameCivil y = frameCivil x := by rw [← frameFields_civil, ← frameFields_civil, h.frameFields_eq]
  have sameFlag : y.testBit 17 = x.testBit 17 := (h 17 (by decide) (by decide)).symm
  rw [Machine.decodeResponse_eq, Machine.decodeResponse_eq, checksAnswer, checksAnswer, samePasses, sameCivil, sameFlag]
  cases first : (List.range 13).find? fun k => !passes P x k with
  | none => rfl
  | some k =>
    have fails : passes P x k = false := by simpa using List.find?_some first
    simp only [checkFailure_errKind_ne_zero fails, if_false]
    rfl

/-- Settles O41, by the outcomes of the checks. -/
theorem decodeIgnoresUnexaminedBits : Obligations.DecodeIgnoresUnexaminedBits := by
  intro s x y rsp _ _ agree answeredX
  have same := AgreeOnExamined.decodeResponse_eq agree hardware
  obtain rfl := (exec_answered_iff _ s rsp).mp answeredX
  exact (exec_answered_iff _ s _).mpr same.symm

/-! ## Flipped bits of the parity groups -/

/-- A flipped bit of a group makes an even count of 1 bits odd. -/
theorem not_even_onesIn_flip {x lo hi i : Nat} (even : Even (onesIn x lo hi)) (hlo : lo ≤ i) (hhi : i ≤ hi) :
    ¬ Even (onesIn (x ^^^ 2 ^ i) lo hi) := by
  have count := onesIn_flip x hlo hhi
  have bit := bitAt_le_one x i
  rw [Nat.even_iff] at even ⊢
  omega

/-- A flipped bit of 21 to 58 leaves checks 0 to 6 as they were, but for those of its own parity group. -/
theorem checkHolds_flip {P : Params} {x i j : Nat} (hi : 21 ≤ i ∧ i ≤ 58) (hj : j < 7) (h4 : j = 4 → 28 < i)
    (h5 : j = 5 → 35 < i) (h : CheckHolds P x j) : CheckHolds P (x ^^^ 2 ^ i) j := by
  have same {k : Nat} (hk : k < 21) : (x ^^^ 2 ^ i).testBit k = x.testBit k := by
    rw [testBit_flip, decide_eq_false (by omega), Bool.xor_false]
  match j with
  | 0 => exact Nat.xor_lt_two_pow h (Nat.pow_lt_pow_right (by decide) (by omega))
  | 1 | 2 | 3 => simpa [CheckHolds, same] using h
  | 4 => simpa [CheckHolds, onesIn_flip_outside x (.inr (h4 rfl))] using h
  | 5 => simpa [CheckHolds, onesIn_flip_outside x (.inr (h5 rfl))] using h
  | 6 => trivial

/-- Settles O42: the checks before the group's parity check still hold, and that one does not. -/
theorem flippedProtectedBitIsDetected : Obligations.FlippedProtectedBitIsDetected := by
  intro s x i _ hold
  have detect {k : Nat} (hk : k ≤ 7) (hi : 21 ≤ i ∧ i ≤ 58) (h4 : 4 < k → 28 < i) (h5 : 5 < k → 35 < i)
      (violated : ¬ CheckHolds hardware (x ^^^ 2 ^ i) k) :
      exec (.decode (x ^^^ 2 ^ i)) s = .next (answered s (checkFailure (x ^^^ 2 ^ i) k)) := by
    refine (exec_answered_iff _ s _).mpr (decodeResponse_of_first_violated (by omega) (fun j hj => ?_) violated).symm
    exact checkHolds_flip hi (by omega) (by omega) (by omega) (hold j (by omega))
  refine ⟨fun lo hi => ?_, fun lo hi => ?_, fun lo hi => ?_⟩
  · exact detect (k := 4) (by omega) (by omega) (by omega) (by omega) (not_even_onesIn_flip (hold 4 (by omega)) lo hi)
  · exact detect (k := 5) (by omega) (by omega) (by omega) (by omega) (not_even_onesIn_flip (hold 5 (by omega)) lo hi)
  · exact detect (k := 7) (by omega) (by omega) (by omega) (by omega) (not_even_onesIn_flip (hold 7 (by omega)) lo hi)

/-! ## DECODE_STR -/

theorem wf_stringOperation {str : List Byte} (h : str.length < 256) : (stringOperation str).wf = true := by
  simp [stringOperation, Instr.wf, stringFits, h]

/-- After the first request DECODE_STR goes on from the state that its response was delivered in. -/
theorem decodeStr_eq {str : List Byte} (s : State) (h : str.length < 256) :
    decodeStr str s = decodeLastResult (answered s (responseOf (stringOperation str))) := by
  rw [decodeStr, if_pos h, issueOperation_of_wf s (wf_stringOperation h), exec_eq_answered]

theorem getLast?_answered (s : State) (rsp : Response) : (answered s rsp).responses.getLast? = some rsp :=
  List.getLast?_concat

/-- A second request decodes the scalar that the first was answered with. -/
theorem decodeLastResult_of_scalar (s : State) {x : Nat} (hx : x < 2 ^ 64) :
    decodeLastResult (answered s (scalarResponse x)) = exec (.decode x) (answered s (scalarResponse x)) := by
  have success : (scalarResponse x).errKind = 0 := rfl
  have value : (scalarResponse x).r.toNat = x := Nat.mod_eq_of_lt hx
  simp only [decodeLastResult, getLast?_answered, success, value, if_true]
  exact issueOperation_of_wf _ (by simpa [Instr.wf, wordFits] using hx)

/-- No second request follows an error. -/
theorem decodeLastResult_of_error (s : State) {rsp : Response} (fails : rsp.errKind ≠ 0) :
    decodeLastResult (answered s rsp) = .next (answered s rsp) := by
  simp only [decodeLastResult, getLast?_answered, fails, if_false]

/-- Settles O47, by the answer to FRAME_FROM_STRING. -/
theorem decodeStrIsTwoRequests : Obligations.DecodeStrIsTwoRequests := by
  refine ⟨fun s str length digits => ?_, fun s str length notFrame => ?_⟩
  · have whole : stringOperation str = .frameFromString 60 str := by
      rw [stringOperation, length, stringPort_toList length]
    obtain ⟨x, frame, bits, response⟩ :=
      (frameFromStringPlacesEachCharacter s 60 str (by decide) length).1 ⟨rfl, digits⟩
    have first : scalarResponse x = responseOf (stringOperation str) := by
      rw [whole, ← exec_answered_iff _ s, response]
    refine ⟨x, frame, bits, ?_⟩
    rw [decodeStr_eq s (by omega), ← first, decodeLastResult_of_scalar s (by omega)]
  · have fails : str.length ≠ 60 ∨ ∃ c ∈ (stringPort str).toList, c ≠ 0x30 ∧ c ≠ 0x31 := by
      refine (em (str.length = 60)).elim (fun whole => ?_) .inl
      rw [stringPort_toList whole]
      exact notFrame
    have first : errorResponse 1 14 0 0 = responseOf (stringOperation str) := by
      rw [← exec_answered_iff _ s]
      exact (frameFromStringPlacesEachCharacter s _ _ length Vector.length_toList).2 fails
    rw [decodeStr_eq s length, ← first, decodeLastResult_of_error s (by decide)]

end Sys2Proof.Machine

/-! # The assembler text: numbers, and a line for each operation

The two ideas. Reading a number goes on from what its first digits have come to, as writing `n` goes on from writing
`n / base` (`digitsValue_toDigits`). A line is a mnemonic, a blank and a text that neither begins nor ends with one
(`divide_line`), and no separator of the text is a digit, so splitting gives the numbers back (`splitAtChar_append`). -/

namespace Sys2Proof.Machine

/-! ## Numbers -/

theorem digitValue_digitChar {d : Nat} (h : d < 16) : digitValue d.digitChar = some d := by
  have table : ∀ d < 16, digitValue d.digitChar = some d := by decide
  exact table d h

/-- A text is read from where reading its beginning has come to. -/
theorem digitsValue_append (base acc : Nat) (front back : List Char) :
    digitsValue base acc (front ++ back) = (digitsValue base acc front).bind fun v => digitsValue base v back := by
  induction front generalizing acc with
  | nil => rfl
  | cons c front ih =>
    simp only [List.cons_append, digitsValue]
    cases digitValue c with
    | none => rfl
    | some d =>
      by_cases small : d < base
      · simp only [small, if_true, ih]
      · simp [small]

/-- One digit more. -/
theorem digitsValue_digitChar {base d : Nat} (acc : Nat) (h : d < base) (hbase : base ≤ 16) :
    digitsValue base acc [d.digitChar] = some (acc * base + d) := by
  simp [digitsValue, digitValue_digitChar (h.trans_le hbase), h]

/-- The digits of a number are read as the number. -/
theorem digitsValue_toDigits {base : Nat} (hbase : 1 < base ∧ base ≤ 16) (n : Nat) :
    digitsValue base 0 (Nat.toDigits base n) = some n := by
  induction n using Nat.strongRecOn with
  | ind n ih =>
    rw [Nat.toDigits_eq_if hbase.1]
    split
    case isTrue small => simpa using digitsValue_digitChar 0 small hbase.2
    case isFalse large =>
      have shorter : n / base < n := Nat.div_lt_self (by omega) hbase.1
      rw [digitsValue_append, ih _ shorter, Option.bind_some,
        digitsValue_digitChar _ (Nat.mod_lt _ (by omega)) hbase.2, Nat.div_add_mod']

/-- A text without an `x` does not begin with `0x`, so its digits are decimal (30_encoding.md R65). -/
theorem parseNumber_of_not_mem {digits : List Char} (nonempty : digits ≠ []) (decimal : 'x' ∉ digits) :
    parseNumber digits = digitsValue 10 0 digits := by
  unfold parseNumber
  split
  · contradiction
  · simp at decimal
  · simp at decimal
  · rfl

/-- The decimal digits of a number are digits, so none of them is another character. -/
theorem not_mem_toDigits {c : Char} (h : c.isDigit = false) (n : Nat) : c ∉ Nat.toDigits 10 n := fun mem =>
  Bool.eq_false_iff.mp h (Nat.isDigit_of_mem_toDigits (by decide) (by decide) mem)

@[simp] theorem parseNumber_toDigits (n : Nat) : parseNumber (Nat.toDigits 10 n) = some n := by
  rw [parseNumber_of_not_mem Nat.toDigits_ne_nil (not_mem_toDigits rfl n), digitsValue_toDigits (by decide)]

theorem parseNumber_hexadecimal (n : Nat) : parseNumber ('0' :: 'x' :: Nat.toDigits 16 n) = some n := by
  have hexadecimal {digits : List Char} (nonempty : digits ≠ []) :
      parseNumber ('0' :: 'x' :: digits) = digitsValue 16 0 digits := by
    cases digits with
    | nil => contradiction
    | cons c rest => rfl
  rw [hexadecimal Nat.toDigits_ne_nil, digitsValue_toDigits (by decide)]

/-- Settles O48, by the digits of a number in either base. -/
theorem assemblerNumbersAreDecimalOrHexadecimal : Obligations.AssemblerNumbersAreDecimalOrHexadecimal := fun n =>
  ⟨parseNumber_toDigits n, parseNumber_hexadecimal n⟩

/-! ## Blanks and separators -/

/-- A text that neither begins nor ends with a blank. -/
def Trimmed (text : List Char) : Prop := text.head? ≠ some ' ' ∧ text.getLast? ≠ some ' '

theorem dropWhile_blank_of_head? {text : List Char} (h : text.head? ≠ some ' ') : text.dropWhile (· == ' ') = text := by
  cases text with
  | nil => rfl
  | cons c rest =>
    have first : c ≠ ' ' := fun e => h (congrArg some e)
    simp [first]

theorem trimBlanks_of_trimmed {text : List Char} (h : Trimmed text) : trimBlanks text = text := by
  obtain ⟨first, last⟩ := h
  have last' : text.reverse.head? ≠ some ' ' := by rwa [List.head?_reverse]
  rw [trimBlanks, dropWhile_blank_of_head? first, dropWhile_blank_of_head? last', List.reverse_reverse]

/-- A blank in front is dropped. -/
@[simp] theorem trimBlanks_cons_blank (text : List Char) : trimBlanks (' ' :: text) = trimBlanks text := rfl

/-- Whatever stands between a beginning and an end, the ends of a text are theirs. -/
theorem trimmed_append {front back : List Char} (first : front.head? ≠ some ' ') (last : back.getLast? ≠ some ' ')
    (hfront : front ≠ []) (hback : back ≠ []) (middle : List Char) : Trimmed (front ++ (middle ++ back)) := by
  refine ⟨?_, ?_⟩
  · rwa [List.head?_append_of_ne_nil _ hfront]
  · rwa [← List.append_assoc, List.getLast?_append_of_ne_nil _ hback]

/-- A text without blanks. -/
theorem trimmed_of_not_mem {text : List Char} (h : ' ' ∉ text) : Trimmed text :=
  ⟨fun first => h (List.mem_of_head? first), fun last => h (List.mem_of_getLast? last)⟩

theorem trimmed_toDigits (n : Nat) : Trimmed (Nat.toDigits 10 n) := trimmed_of_not_mem (not_mem_toDigits rfl n)

/-- A character that is no separator goes to the first piece. -/
theorem splitAtChar_cons_of_ne {sep c : Char} {text piece : List Char} {pieces : List (List Char)} (h : c ≠ sep)
    (split : splitAtChar sep text = piece :: pieces) : splitAtChar sep (c :: text) = (c :: piece) :: pieces := by
  simp [splitAtChar, h, split]

theorem splitAtChar_ne_nil (sep : Char) (text : List Char) : splitAtChar sep text ≠ [] := by
  cases text with
  | nil => exact List.cons_ne_nil _ _
  | cons c text =>
    by_cases h : c = sep
    · simp [splitAtChar, h]
    · simp only [splitAtChar, h, if_false]
      split <;> exact List.cons_ne_nil _ _

/-- A text without the separator is one piece. -/
theorem splitAtChar_of_not_mem {sep : Char} {piece : List Char} (h : sep ∉ piece) : splitAtChar sep piece = [piece] := by
  induction piece with
  | nil => rfl
  | cons c piece ih =>
    rw [List.mem_cons, not_or] at h
    exact splitAtChar_cons_of_ne (Ne.symm h.1) (ih h.2)

/-- The first piece ends at the first separator. -/
theorem splitAtChar_append {sep : Char} {piece : List Char} (h : sep ∉ piece) (rest : List Char) :
    splitAtChar sep (piece ++ sep :: rest) = piece :: splitAtChar sep rest := by
  induction piece with
  | nil => simp [splitAtChar]
  | cons c piece ih =>
    rw [List.mem_cons, not_or] at h
    exact splitAtChar_cons_of_ne (Ne.symm h.1) (ih h.2)

/-! ## Numbers as operands -/

/-- Numbers in decimal, each after the first behind a comma and a blank (30_encoding.md R65). -/
def operandText : List Nat → List Char
  | [] => []
  | [n] => Nat.toDigits 10 n
  | n :: ns => Nat.toDigits 10 n ++ ([',', ' '] ++ operandText ns)

theorem operandText_ne_nil (n : Nat) (ns : List Nat) : operandText (n :: ns) ≠ [] := by
  cases ns <;> simp [operandText, Nat.toDigits_ne_nil]

theorem trimmed_operandText (n : Nat) (ns : List Nat) : Trimmed (operandText (n :: ns)) := by
  induction ns generalizing n with
  | nil => exact trimmed_toDigits n
  | cons m ns ih =>
    exact trimmed_append (trimmed_toDigits n).1 (ih m).2 Nat.toDigits_ne_nil (operandText_ne_nil m ns) _

/-- A blank in front of the operands belongs to the first, which loses it. -/
theorem map_trimBlanks_splitAtChar_blank (text : List Char) :
    (splitAtChar ',' (' ' :: text)).map trimBlanks = (splitAtChar ',' text).map trimBlanks := by
  cases split : splitAtChar ',' text with
  | nil => exact absurd split (splitAtChar_ne_nil ',' text)
  | cons piece pieces =>
    rw [splitAtChar_cons_of_ne (by decide) split, List.map_cons, List.map_cons, trimBlanks_cons_blank]

/-- The operands of a line are read as the numbers they were written from. -/
theorem parse_operandText (n : Nat) (ns : List Nat) :
    ((splitAtChar ',' (operandText (n :: ns))).map trimBlanks).map parseNumber = (n :: ns).map some := by
  have comma (k : Nat) : ',' ∉ Nat.toDigits 10 k := not_mem_toDigits rfl k
  have number (k : Nat) : parseNumber (trimBlanks (Nat.toDigits 10 k)) = some k := by
    rw [trimBlanks_of_trimmed (trimmed_toDigits k), parseNumber_toDigits]
  induction ns generalizing n with
  | nil => simp [operandText, splitAtChar_of_not_mem (comma n), number]
  | cons m ns ih =>
    have text : operandText (n :: m :: ns) = Nat.toDigits 10 n ++ ',' :: (' ' :: operandText (m :: ns)) := rfl
    rw [text, splitAtChar_append (comma n), List.map_cons, map_trimBlanks_splitAtChar_blank, List.map_cons, ih, number,
      List.map_cons (l := m :: ns)]

/-! ## Datetimes and strings -/

/-- A datetime in the form of 30_encoding.md R65. -/
def datetimeText (year month day hour minute : Nat) : List Char :=
  let num : Nat → List Char := Nat.toDigits 10
  num year ++ '-' :: num month ++ '-' :: num day ++ 'T' :: num hour ++ ':' :: num minute

theorem datetimeText_ne_nil (year month day hour minute : Nat) : datetimeText year month day hour minute ≠ [] := by
  simp [datetimeText]

theorem blank_not_mem_datetimeText (year month day hour minute : Nat) :
    ' ' ∉ datetimeText year month day hour minute := by
  simp [datetimeText, not_mem_toDigits]

/-- No separator of a datetime is a digit, so the pieces are its numbers. -/
theorem parseDatetime_datetimeText (year month day hour minute : Nat) :
    parseDatetime (datetimeText year month day hour minute) = some (year, month, day, hour, minute) := by
  have separator {c : Char} (h : c.isDigit = false) (n : Nat) : c ∉ Nat.toDigits 10 n := not_mem_toDigits h n
  have text : datetimeText year month day hour minute =
      (Nat.toDigits 10 year ++ '-' :: (Nat.toDigits 10 month ++ '-' :: Nat.toDigits 10 day)) ++
        'T' :: (Nat.toDigits 10 hour ++ ':' :: Nat.toDigits 10 minute) := by
    simp [datetimeText]
  have halves : splitAtChar 'T' (datetimeText year month day hour minute) =
      [Nat.toDigits 10 year ++ '-' :: (Nat.toDigits 10 month ++ '-' :: Nat.toDigits 10 day),
        Nat.toDigits 10 hour ++ ':' :: Nat.toDigits 10 minute] := by
    rw [text, splitAtChar_append (by simp [separator]), splitAtChar_of_not_mem (by simp [separator])]
  have date : splitAtChar '-' (Nat.toDigits 10 year ++ '-' :: (Nat.toDigits 10 month ++ '-' :: Nat.toDigits 10 day)) =
      [Nat.toDigits 10 year, Nat.toDigits 10 month, Nat.toDigits 10 day] := by
    rw [splitAtChar_append (separator rfl _), splitAtChar_append (separator rfl _),
      splitAtChar_of_not_mem (separator rfl _)]
  have time : splitAtChar '-' (Nat.toDigits 10 hour ++ ':' :: Nat.toDigits 10 minute) =
      [Nat.toDigits 10 hour ++ ':' :: Nat.toDigits 10 minute] := splitAtChar_of_not_mem (by simp [separator])
  have hourAndMinute : splitAtChar ':' (Nat.toDigits 10 hour ++ ':' :: Nat.toDigits 10 minute) =
      [Nat.toDigits 10 hour, Nat.toDigits 10 minute] := by
    rw [splitAtChar_append (separator rfl _), splitAtChar_of_not_mem (separator rfl _)]
  simp [parseDatetime, halves, date, time, hourAndMinute]

theorem assembleDatetime_datetimeText (build : Nat → Nat → Nat → Nat → Nat → Instr) (year month day hour minute : Nat) :
    assembleDatetime build (datetimeText year month day hour minute) = some (build year month day hour minute) := by
  rw [assembleDatetime, parseDatetime_datetimeText]

/-- The bytes of ASCII characters. -/
def asciiBytes (str : List Char) : List Byte := str.map fun c => BitVec.ofNat 8 c.toNat

/-- A quoted string of ASCII characters is read as their bytes. -/
theorem parseQuoted_quoted {str : List Char} (h : ∀ c ∈ str, c ≠ '"' ∧ c.toNat < 128) :
    parseQuoted ('"' :: (str ++ ['"'])) = some (asciiBytes str) := by
  have allowed : (str.reverse.all fun c => c != '"' && decide (c.toNat < 128)) = true := by
    simpa using h
  have back : (str ++ ['"']).reverse = '"' :: str.reverse := by simp
  simp only [parseQuoted, back, allowed, if_true, List.reverse_reverse, asciiBytes]

/-! ## Lines -/

/-- A line is divided at its first blank. -/
theorem divide_line {mnemonic text : List Char} (hm : mnemonic ≠ [] ∧ ' ' ∉ mnemonic) (ht : text ≠ [] ∧ Trimmed text) :
    trimBlanks (mnemonic ++ ' ' :: text) = mnemonic ++ ' ' :: text ∧
      (mnemonic ++ ' ' :: text).takeWhile (· != ' ') = mnemonic ∧
      trimBlanks ((mnemonic ++ ' ' :: text).dropWhile (· != ' ')) = text := by
  obtain ⟨named, noBlank⟩ := hm
  obtain ⟨nonempty, trimmed⟩ := ht
  have noBlank' : ∀ c ∈ mnemonic, (c != ' ') = true := fun c hc => by
    simpa using ne_of_mem_of_not_mem hc noBlank
  refine ⟨trimBlanks_of_trimmed (trimmed_append (trimmed_of_not_mem noBlank).1 trimmed.2 named nonempty [' ']), ?_, ?_⟩
  · simp [List.takeWhile_append_of_pos noBlank']
  · simp [List.dropWhile_append_of_pos noBlank', trimBlanks_of_trimmed trimmed]

/-- The mnemonics of the operations (30_encoding.md R65). -/
def mnemonics : List String :=
  ["EXTRACT", "BCD_DEC", "BCD_ENC", "PARITY", "FRAME_FROM_WORD", "FRAME_FROM_STRING", "BIT", "RANGE", "DECODE", "ENCODE",
    "ENCODE_LOCAL"]

theorem mnemonic_form : ∀ m ∈ mnemonics,
    (m.toList ≠ [] ∧ ' ' ∉ m.toList) ∧ m.toList ≠ "DECODE_STR".toList := by decide

/-- A line whose text is read as a well-formed operation stands for it. -/
theorem assemble_of_operation {m : String} (hm : m ∈ mnemonics) {text : List Char} (ht : text ≠ [] ∧ Trimmed text)
    {i : Instr} (operation : assembleOperation m.toList text = some i) (wf : i.wf = true) :
    assemble (m.toList ++ ' ' :: text) = some (.operation i) := by
  obtain ⟨form, other⟩ := mnemonic_form m hm
  obtain ⟨line, front, back⟩ := divide_line form ht
  simp only [assemble, line, front, back, other, if_false, operation, wf, if_true]

theorem assemble_decodeStr {text : List Char} (ht : text ≠ [] ∧ Trimmed text) :
    assemble ("DECODE_STR".toList ++ ' ' :: text) = (parseQuoted text).map .decodeString := by
  obtain ⟨line, front, back⟩ := divide_line (mnemonic := "DECODE_STR".toList) (by decide) ht
  simp only [assemble, line, front, back, if_true]

/-- The four operations of one number. -/
theorem assembleOperation_word :
    ∀ p ∈ [("BCD_DEC", Instr.bcdDec), ("BCD_ENC", .bcdEnc), ("FRAME_FROM_WORD", .frameFromWord), ("DECODE", .decode)],
      p.1 ∈ mnemonics ∧ ∀ a, assembleOperation p.1.toList (operandText [a]) = some (p.2 a) ∧
        (p.2 a).wf = wordFits a := by
  have word (build : Nat → Instr) (a : Nat) :
      assembleWord build ((splitAtChar ',' (operandText [a])).map trimBlanks) = some (build a) := by
    simp only [assembleWord, parse_operandText, List.map_cons, List.map_nil]
  simp only [List.forall_mem_cons]
  exact ⟨⟨by decide, fun a => ⟨word .bcdDec a, rfl⟩⟩, ⟨by decide, fun a => ⟨word .bcdEnc a, rfl⟩⟩,
    ⟨by decide, fun a => ⟨word .frameFromWord a, rfl⟩⟩, ⟨by decide, fun a => ⟨word .decode a, rfl⟩⟩,
    List.forall_mem_nil _⟩

/-- The three operations of a number and two indices. -/
theorem assembleOperation_range :
    ∀ p ∈ [("EXTRACT", Instr.extract), ("PARITY", .parity), ("RANGE", .range)],
      p.1 ∈ mnemonics ∧ ∀ a lo hi, assembleOperation p.1.toList (operandText [a, lo, hi]) = some (p.2 a lo hi) ∧
        (p.2 a lo hi).wf = (wordFits a && indexFits lo && indexFits hi) := by
  have range (build : Nat → Nat → Nat → Instr) (a lo hi : Nat) :
      assembleRange build ((splitAtChar ',' (operandText [a, lo, hi])).map trimBlanks) = some (build a lo hi) := by
    simp only [assembleRange, parse_operandText, List.map_cons, List.map_nil]
  simp only [List.forall_mem_cons]
  exact ⟨⟨by decide, fun a lo hi => ⟨range .extract a lo hi, rfl⟩⟩,
    ⟨by decide, fun a lo hi => ⟨range .parity a lo hi, rfl⟩⟩, ⟨by decide, fun a lo hi => ⟨range .range a lo hi, rfl⟩⟩, List.forall_mem_nil _⟩

/-- BIT, of a number and an index. -/
theorem assembleOperation_bit (a lo : Nat) :
    assembleOperation "BIT".toList (operandText [a, lo]) = some (.bit a lo) := by
  simp [assembleOperation, assembleIndex, parse_operandText, -List.map_map]

/-- FRAME_FROM_STRING, of a quoted string. -/
theorem assembleOperation_frameFromString (text : List Char) :
    assembleOperation "FRAME_FROM_STRING".toList text = (parseQuoted text).map stringOperation := by
  simp [assembleOperation]

/-- ENCODE, whose datetime ends in `Z`. -/
theorem assembleOperation_encode (year month day hour minute : Nat) :
    assembleOperation "ENCODE".toList (datetimeText year month day hour minute ++ ['Z']) =
      some (.encode year month day hour minute) := by
  simp [assembleOperation, assembleUtc, assembleDatetime_datetimeText]

/-- ENCODE_LOCAL. -/
theorem assembleOperation_encodeLocal (year month day hour minute : Nat) :
    assembleOperation "ENCODE_LOCAL".toList (datetimeText year month day hour minute) =
      some (.encodeLocal year month day hour minute) := by
  simp [assembleOperation, assembleDatetime_datetimeText]

/-- Settles O49: the text of each line is read as its operation, whose operands fit. -/
theorem assemblerLinesStandForOperations : Obligations.AssemblerLinesStandForOperations := by
  have operands (n : Nat) (ns : List Nat) := And.intro (operandText_ne_nil n ns) (trimmed_operandText n ns)
  refine ⟨?_, ?_, ?_, ?_, ?_⟩
  · intro p hp a ha
    obtain ⟨named, reads⟩ := assembleOperation_word p hp
    obtain ⟨operation, wf⟩ := reads a
    exact assemble_of_operation named (operands a []) operation (by simpa [wf, wordFits] using ha)
  · intro p hp a lo hi ha hlo hhi
    obtain ⟨named, reads⟩ := assembleOperation_range p hp
    obtain ⟨operation, wf⟩ := reads a lo hi
    have line := assemble_of_operation named (operands a [lo, hi]) operation (by simp [wf, wordFits, indexFits]; omega)
    simpa [operandText] using line
  · intro a lo ha hlo
    have wf : (Instr.bit a lo).wf = true := by simp [Instr.wf, wordFits, indexFits]; omega
    have line := assemble_of_operation (m := "BIT") (by decide) (operands a [lo]) (assembleOperation_bit a lo) wf
    simpa [operandText] using line
  · intro year month day hour minute fits
    change assemble ("ENCODE ".toList ++ datetimeText year month day hour minute ++ ['Z']) = _ ∧
      assemble ("ENCODE_LOCAL ".toList ++ datetimeText year month day hour minute) = _
    have noBlank := blank_not_mem_datetimeText year month day hour minute
    have ht := And.intro (datetimeText_ne_nil year month day hour minute) (trimmed_of_not_mem noBlank)
    have htZ := And.intro (List.concat_ne_nil 'Z' (datetimeText year month day hour minute))
      (trimmed_of_not_mem (List.not_mem_append noBlank (by decide : ' ' ∉ ['Z'])))
    have utc := assemble_of_operation (m := "ENCODE") (by decide) htZ
      (assembleOperation_encode year month day hour minute) fits
    have civil := assemble_of_operation (m := "ENCODE_LOCAL") (by decide) ht
      (assembleOperation_encodeLocal year month day hour minute) fits
    exact ⟨by simpa using utc, by simpa using civil⟩
  · intro str ascii
    have ht : '"' :: (str ++ ['"']) ≠ [] ∧ Trimmed ('"' :: (str ++ ['"'])) :=
      ⟨List.cons_ne_nil _ _, trimmed_append (front := ['"']) (by decide) (by decide) (by decide) (by decide) str⟩
    refine ⟨?_, fun short => ?_⟩
    · have line := assemble_decodeStr ht
      rw [parseQuoted_quoted ascii] at line
      simpa [asciiBytes] using line
    · have operation := assembleOperation_frameFromString ('"' :: (str ++ ['"']))
      rw [parseQuoted_quoted ascii] at operation
      have wf := wf_stringOperation (str := asciiBytes str) (by simpa [asciiBytes] using short)
      have line := assemble_of_operation (m := "FRAME_FROM_STRING") (by decide) ht operation wf
      simpa [asciiBytes] using line

end Sys2Proof.Machine
